-- ==== Sys2Proof/Word.lean ====
section
/-! DEFINITION. The widths of the machine (spec/00_scope.md R5, R10): what the manual treats as bits. -/

namespace Sys2Proof

/-- A byte: half a memory cell, one character of the stream, one byte of the binary image. -/
abbrev Byte := BitVec 8

/-- A word: one memory cell, one instruction word (`WORD_BITS` = 16, R5). -/
abbrev Word := BitVec 16

/-- A register value, an Address or an Integer: the same 32 bits (`REG_BITS` = 32, R5, R22). -/
abbrev Value := BitVec 32

/-- A register index: 4 bits, sixteen registers (`REG_COUNT` = 16, R5, R21). -/
abbrev RegIndex := BitVec 4

/-- A bitmask nibble (R12). -/
abbrev Nibble := BitVec 4

end Sys2Proof
end

