-- ==== Sys2Proof/Machine/Codec.lean ====
section
/-! DEFINITION. The Bit-Field Codec (spec/00_scope.md R6 to R15): fields, halves, the bitmask nibble and the merge. -/

namespace Sys2Proof

/-- R6: read a field out of a value. -/
def decodeBits {n : Nat} (value mask : BitVec n) (shift : Nat) : BitVec n :=
  (value &&& mask) >>> shift

/-- R7: write a field into a value; bits that do not fit under `mask` are dropped. -/
def encodeBits {n : Nat} (value newField mask : BitVec n) (shift : Nat) : BitVec n :=
  (value &&& ~~~mask) ||| ((newField <<< shift) &&& mask)

/-- R10: the low byte of a word. -/
def lowerHalf (w : Word) : Byte := (decodeBits w 0x00FF#16 0).setWidth 8

/-- R10: the high byte of a word. -/
def upperHalf (w : Word) : Byte := (decodeBits w 0xFF00#16 8).setWidth 8

/-- R9: a word from its bytes, the low byte first. -/
def combine (l u : Byte) : Word := l.setWidth 16 ||| (u.setWidth 16 <<< 8)

/-- R9: words as bytes, the low byte of each first. -/
def bytesOfWords : List Word → List Byte
  | [] => []
  | w :: ws => lowerHalf w :: upperHalf w :: bytesOfWords ws

/-- R11: the less significant half of a 32-bit value. -/
def lo16 (v : Value) : Word := (decodeBits v 0x0000FFFF#32 0).setWidth 16

/-- R11: the more significant half of a 32-bit value. -/
def hi16 (v : Value) : Word := (decodeBits v 0xFFFF0000#32 16).setWidth 16

/-- R11: a 32-bit value from its upper half `h` and its lower half `l`. -/
def cat (h l : Word) : Value := l.setWidth 32 ||| (h.setWidth 32 <<< 16)

/-- R12: bit `i` of the nibble gates byte `i` of the 32-bit mask. -/
def expand (m : Nibble) : Value :=
  (if m.getLsbD 0 then 0x000000FF#32 else 0#32) |||
  (if m.getLsbD 1 then 0x0000FF00#32 else 0#32) |||
  (if m.getLsbD 2 then 0x00FF0000#32 else 0#32) |||
  (if m.getLsbD 3 then 0xFF000000#32 else 0#32)

/-- R13: the lower half is selected, `m[1:0] != 0`. -/
def lowsel (m : Nibble) : Bool := (m &&& 0b0011#4) != 0#4

/-- R13: the upper half is selected, `m[3:2] != 0`. -/
def upsel (m : Nibble) : Bool := (m &&& 0b1100#4) != 0#4

/-- R13: `ML(m)`, the 16-bit mask of the lower half. -/
def maskLow (m : Nibble) : Word := lo16 (expand m)

/-- R13: `MU(m)`, the 16-bit mask of the upper half. -/
def maskHigh (m : Nibble) : Word := hi16 (expand m)

/-- spec/20_memory.md R54: the bits of `dst` under `mh` are replaced by those of `src`. -/
def merge16 (dst src mh : Word) : Word := (dst &&& ~~~mh) ||| (src &&& mh)

/-- R15: the two's complement reading of a register's bits. -/
def signed (v : Value) : Int := v.toInt

/-- spec/30_encoding.md R94: the maskable immediate from its two halves (0 for a half that was not fetched). -/
def maskedImm (m : Nibble) (lower upper : Word) : Value := cat upper lower &&& expand m

end Sys2Proof
end

