-- ==== Sys2Proof/Config.lean ====
section
/-! DEFINITION. The implementation parameters of spec/00_scope.md R5: fixed for the life of a core. The machine's
step has one fixed type, so a core's parameters stand in its State, in one field that no instruction writes (log 1);
every statement over all states is thereby a statement over all settings. -/

namespace Sys2Proof

/-- How 32 bits are read as a number: `unsigned`, or `signed` as two's complement (R15). -/
inductive Reading where
  | unsigned
  | signed
deriving DecidableEq, Repr

/-- `SHIFT_RIGHT_KIND` (R5, R155). -/
inductive ShiftKind where
  | logical
  | arithmetic
deriving DecidableEq, Repr

/-- The open parameters of R5. -/
structure Params where
  /-- `CAPACITY = 2 ^ (capExp + 1)` words: every power of two from 2 to 2^32 and nothing else (R5, D2). -/
  capExp : Fin 32
  /-- `ARITH_INTERP`: how Div, Rem, Min and Max read their operands (R135). -/
  arithInterp : Reading
  /-- `COMPARE_INTERP`: how the four ordered comparisons read their operands (R165). -/
  compareInterp : Reading
  /-- `SHIFT_RIGHT_KIND`: what a right shift does to bit 31 (R155). -/
  shiftRightKind : ShiftKind
deriving DecidableEq, Repr

/-- The default of each parameter as R5 gives it: 2^24 words, unsigned, unsigned, logical. -/
def Params.standard : Params :=
  { capExp := 23, arithInterp := .unsigned, compareInterp := .unsigned, shiftRightKind := .logical }

/-- `CAPACITY`, in words (R5). -/
def Params.capacity (p : Params) : Nat := 2 ^ (p.capExp.val + 1)

end Sys2Proof
end

