-- ==== Sys2Proof/Machine/State.lean ====
section
/-! DEFINITION. The machine's state as plain data (spec/10_state.md R20), the reasons a step can stop, and reset
(R38, spec/70_reset_and_hazards.md R270). -/

namespace Sys2Proof.Machine

/-- The causes of an architectural fault (spec/60_exceptions.md R240). -/
inductive FaultCause where
  /-- R241: a memory access at or above CAPACITY. -/
  | illegalAddress
  /-- R242: Div or Rem with a zero second operand. -/
  | divideByZero
  /-- R243: a first word of no group. -/
  | illegalOpcode
  /-- R244: a first word of a defined group with an undefined style. -/
  | illegalStyle
  /-- R245: kept so that the taxonomy is complete; nothing raises it. -/
  | badBitmaskIndex
deriving DecidableEq, Repr

/-- What a fault records: the cause and its information word (R34, R240). -/
structure FaultRecord where
  cause : FaultCause
  info : Value
deriving DecidableEq, Repr

/-- The Linear Memory as the bytes of its words: word `a` is byte `2a` (low) and byte `2a + 1` (high), little-endian as
the image stores it (R35, R275, log 2). An address not listed reads as `Memory.unlisted`. -/
abbrev Memory := List Host.Cell

/-- What an unlisted byte reads as: memory is "zero-initialized" (R35). -/
def Memory.unlisted : Byte := 0#8

/-- The canonical form: addresses strictly rising, no entry equal to what an unlisted address reads as. -/
abbrev Memory.wf (m : Memory) : Prop :=
  m.Pairwise (fun c d => c.1 < d.1) ∧ ∀ c ∈ m, c.2 ≠ Memory.unlisted

/-- The state of the core (R20), with its read-only parameters (R5, R36, log 1) and the environment's two byte lists
(R279, log 3). -/
structure State where
  /-- `x[0..15]`, the register file (R21); 15 is IP, 14 SP, 13 CSP, 12 AR, 11 VR (R24). -/
  regs : Vector Value 16
  /-- `mem[0..CAPACITY-1]` (R35). -/
  mem : Memory
  /-- The ConditionFlag (R32). -/
  flag : Bool
  /-- The halt flag: true is Running, false is Halted (R33). -/
  keepExecuting : Bool
  /-- Why a run was aborted, or `none` (R34). -/
  fault : Option FaultRecord
  /-- The constants of this core: no instruction writes them (R20, R36). -/
  params : Params
  /-- The environment's bytes still to be read, oldest first (R279). The model's own field. -/
  input : List Byte
  /-- The bytes the environment has taken, oldest first (R279). The model's own field. -/
  output : List Byte
deriving DecidableEq, Repr

/-- Why the model stops without a next state. An ARCHITECTURAL fault is not here: taking one is a next state, with
`fault` written and `keepExecuting` cleared (R246, `State.takeFault`). -/
inductive Fault where
  /-- Raised by `step` on a Halted core: it executes nothing, no further step exists (R273, R280, U1). Safe. -/
  | halted
  /-- Raised by `getc` when the environment has no byte left: the instruction never completes, the core is neither halted
  nor faulted (R227, U5). Safe: a machine whose environment later supplies a byte goes on where the model stops. -/
  | inputExhausted
  /-- Raised by `div`, `rem`, `divi`, `remi` under the signed reading on -2^31 and -1: "left unspecified ... and a model
  should fault on it" (R135, U3). Safe: nothing can be proved about what follows. -/
  | signedDivideOverflow
deriving DecidableEq, Repr

/-- Why the model gives an instruction no meaning. -/
inductive Refusal where
  /-- Raised by an arm of `exec` whose instruction has no meaning yet; no arm does now. Safe. -/
  | notModelled (mnemonic : String)
deriving DecidableEq, Repr

/-- What a meaning answers. -/
abbrev Result := Host.Outcome State Fault Refusal

/-- R38, R270: the core right after construction with the given parameters. -/
def State.resetWith (p : Params) : State :=
  { regs := Vector.replicate 16 0#32
    mem := []
    flag := false
    keepExecuting := true
    fault := none
    params := p
    input := []
    output := [] }

/-- R38, R270: the core right after reset, at the default parameters of R5. -/
def State.reset : State := State.resetWith Params.standard

end Sys2Proof.Machine
end

