-- ==== Sys2Proof/Machine/Ops.lean ====
section
/-! DEFINITION. The named operations over registers, memory, control state and the character stream, and taking a fault.
Everything an instruction does goes through these. -/

namespace Sys2Proof.Machine

/-! ### Memory as bytes and words -/

/-- The byte at a byte address; an unlisted one reads as `Memory.unlisted`. -/
def Memory.readByte : Memory → Nat → Byte
  | [], _ => Memory.unlisted
  | (k, v) :: m, a => if k = a then v else Memory.readByte m a

/-- Put an entry before the first entry of a higher address. -/
def Memory.insertByte : Memory → Nat → Byte → Memory
  | [], a, b => [(a, b)]
  | c :: m, a, b => if a < c.1 then (a, b) :: c :: m else c :: Memory.insertByte m a b

/-- Write one byte, keeping the canonical form: writing what an unlisted address reads as removes the entry. -/
def Memory.writeByte (m : Memory) (a : Nat) (b : Byte) : Memory :=
  let others := m.filter (fun c => c.1 != a)
  if b = Memory.unlisted then others else Memory.insertByte others a b

/-- `mem[a]` (spec/10_state.md R35): the low byte at `2a`, the high byte at `2a + 1`. -/
def Memory.readWord (m : Memory) (a : Nat) : Word := combine (m.readByte (2 * a)) (m.readByte (2 * a + 1))

/-- `mem[a] <- w`. -/
def Memory.writeWord (m : Memory) (a : Nat) (w : Word) : Memory :=
  (m.writeByte (2 * a) (lowerHalf w)).writeByte (2 * a + 1) (upperHalf w)

/-! ### Registers -/

/-- InstructionPointer (R24, R30). -/
abbrev IP : RegIndex := 15#4
/-- StackPointer: the parameter stack (R24). -/
abbrev SP : RegIndex := 14#4
/-- CallStackPointer: the call stack (R24). -/
abbrev CSP : RegIndex := 13#4
/-- AddressRegister: the base of Load and Store (R24). -/
abbrev AR : RegIndex := 12#4
/-- ValueRegister: the data register of Load and Store, the result register of Min and Max (R24). -/
abbrev VR : RegIndex := 11#4

/-- `ADDR_MASK` = CAPACITY - 1 (spec/00_scope.md R5). -/
def addrMask (p : Params) : Value := BitVec.ofNat 32 (p.capacity - 1)

/-- R25: the address mask of a register: CAPACITY - 1 for the four address-holding registers, all ones for the rest. -/
def regmask (p : Params) (i : RegIndex) : Value := if 12#4 ≤ i then addrMask p else 0xFFFFFFFF#32

/-- R26: the stored bits of a register. -/
def State.reg (s : State) (i : RegIndex) : Value := s.regs[i.toNat]'(i.isLt)

/-- R27: write a register, then re-apply its mask. -/
def State.setReg (s : State) (i : RegIndex) (v : Value) : State :=
  { s with regs := s.regs.set i.toNat (v &&& regmask s.params i) i.isLt }

/-- R28: increment with wraparound, then mask. -/
def State.incr (s : State) (i : RegIndex) (amount : Value) : State := s.setReg i (s.reg i + amount)

/-- R28: decrement with wraparound, then mask. -/
def State.decr (s : State) (i : RegIndex) (amount : Value) : State := s.setReg i (s.reg i - amount)

/-! ### The other fields -/

/-- Replace the memory. -/
def State.setMem (s : State) (m : Memory) : State := { s with mem := m }

/-- Write the ConditionFlag (R32). -/
def State.setFlag (s : State) (b : Bool) : State := { s with flag := b }

/-- Clear `keepExecuting` (R33). -/
def State.stop (s : State) : State := { s with keepExecuting := false }

/-! ### Taking a fault -/

/-- R246, fault entry: the record is written, `keepExecuting` is cleared, and nothing else. No register is saved, no mode
changes and control goes nowhere; there is no return from it (R250). -/
def State.takeFault (s : State) (f : FaultRecord) : State := { s with fault := some f, keepExecuting := false }

/-- How far an instruction got: it went on with a value, or it raised a fault at this point, in this state (R246, R248:
what was done before stays done). -/
inductive Attempt (α : Type) where
  | done (a : α) (s : State)
  | raised (f : FaultRecord) (s : State)

/-- Go on with the rest of the pseudocode, unless a fault was raised. -/
def Attempt.andThen {α β : Type} (x : Attempt α) (k : α → State → Attempt β) : Attempt β :=
  match x with
  | .done a s => k a s
  | .raised f s => .raised f s

/-- The end of an instruction: its next state, with the fault taken if one was raised (R246). -/
def Attempt.finish (x : Attempt Unit) : Result :=
  match x with
  | .done _ s => .next s
  | .raised f s => .next (s.takeFault f)

/-! ### Access to memory, checked (spec/20_memory.md R51) -/

/-- `raise IllegalAddress(a)` (R241). -/
def illegalAddress (a : Value) : FaultRecord := { cause := .illegalAddress, info := a }

/-- `raise DivideByZero()` (R242). -/
def divideByZero : FaultRecord := { cause := .divideByZero, info := 0#32 }

/-- `MemRead(a, 1)` (R51). -/
def memRead (a : Value) (s : State) : Attempt Word :=
  if s.params.capacity ≤ a.toNat then .raised (illegalAddress a) s else .done (s.mem.readWord a.toNat) s

/-- `MemWrite(a, 1, v)` (R51). -/
def memWrite (a : Value) (v : Word) (s : State) : Attempt Unit :=
  if s.params.capacity ≤ a.toNat then .raised (illegalAddress a) s
  else .done () (s.setMem (s.mem.writeWord a.toNat v))

/-- `nextWord()` (R52): read the word at IP, then advance IP by one through its mask. -/
def nextWord (s : State) : Attempt Word :=
  (memRead (s.reg IP) s).andThen fun w s => .done w (s.incr IP 1#32)

/-- One half of a partial store (R54, R202, R203): the bytes under `mh` of the word at `a` become those of `src`. With a
whole half the old word is not read. -/
def mergeWrite (a : Value) (src mh : Word) (s : State) : Attempt Unit :=
  if mh = 0xFFFF#16 then memWrite a (merge16 0#16 src mh) s
  else (memRead a s).andThen fun old s => memWrite a (merge16 old src mh) s

/-! ### The two stacks (spec/46_memory_ops.md R205) -/

/-- Push one word on the stack of pointer `p`: pre-decrement through the mask, then write. -/
def pushWord (p : RegIndex) (w : Word) (s : State) : Attempt Unit :=
  memWrite ((s.decr p 1#32).reg p) w (s.decr p 1#32)

/-- Push one half on the stack of pointer `p`, merged under `mh` with what the cell held (R203). -/
def pushHalf (p : RegIndex) (src mh : Word) (s : State) : Attempt Unit :=
  mergeWrite ((s.decr p 1#32).reg p) src mh (s.decr p 1#32)

/-- Pop one word from the stack of pointer `p`: read, then post-increment through the mask. -/
def popWord (p : RegIndex) (s : State) : Attempt Word :=
  (memRead (s.reg p) s).andThen fun w s => .done w (s.incr p 1#32)

/-- `pushCall(a)` (spec/45_branch.md R185): the upper half first, so that the lower half ends at `mem[CSP]`. -/
def pushCall (a : Value) (s : State) : Attempt Unit :=
  (pushWord CSP (hi16 a) s).andThen fun _ s => pushWord CSP (lo16 a) s

/-- The inverse of `pushCall` (spec/48_misc.md R225): the lower half first. -/
def popCall (s : State) : Attempt Value :=
  (popWord CSP s).andThen fun lower s => (popWord CSP s).andThen fun upper s => .done (cat upper lower) s

/-! ### The character stream (spec/70_reset_and_hazards.md R279) -/

/-- `CharIn()`: the next input byte, or `none` where it blocks for ever (U5). -/
def charIn (s : State) : Option (Byte × State) :=
  match s.input with
  | [] => none
  | b :: rest => some (b, { s with input := rest })

/-- `CharOut(b)`: append a byte to the output (log 5: the environment always accepts). -/
def charOut (b : Byte) (s : State) : State := { s with output := s.output ++ [b] }

end Sys2Proof.Machine
end

