-- ==== Sys2Proof/Machine/Operands.lean ====
section
/-! DEFINITION. Operand forms, and the ways a result is delivered. -/

namespace Sys2Proof.Machine

/-! ### Reading operands (spec/41_arithmetic.md R120, spec/42_logical.md R140, spec/43_shift.md R155) -/

/-- The effective address of Load and Store: `(AR + off) mod 2^32`, unmasked (spec/46_memory_ops.md R200,
spec/20_memory.md R60). -/
def effAddr (off : BitVec 4) (s : State) : Value := s.reg AR + off.setWidth 32

/-- The shift amount of the register form: the low five bits of the amount register (R155). -/
def shiftAmount (src : RegIndex) (s : State) : Nat := ((s.reg src).setWidth 5).toNat

/-! ### Delivering a result -/

/-- An Arithmetic or Logical instruction: `x[d] <- f(x[d], b)` (R120, R140). -/
def combineInto (f : Value → Value → Value) (d : RegIndex) (b : Value) (s : State) : Result :=
  .next (s.setReg d (f (s.reg d) b))

/-- `less(a, b)` under a reading (R126, spec/44_compare.md R168). -/
def less (r : Reading) (a b : Value) : Bool :=
  match r with
  | .unsigned => decide (a.toNat < b.toNat)
  | .signed => decide (signed a < signed b)

/-! ### Arithmetic values (R135) -/

/-- The 32-bit complement of the And (R144). -/
def nandValue (a b : Value) : Value := ~~~(a &&& b)

/-- The smaller operand (R126). -/
def minValue (r : Reading) (a b : Value) : Value := if less r a b then a else b

/-- The larger operand (R127). -/
def maxValue (r : Reading) (a b : Value) : Value := if less r a b then b else a

/-- The quotient for a nonzero divisor: floor when unsigned, rounded toward zero when signed (R135). -/
def quotient (r : Reading) (a b : Value) : Value :=
  match r with
  | .unsigned => BitVec.ofNat 32 (a.toNat / b.toNat)
  | .signed => BitVec.ofInt 32 ((signed a).tdiv (signed b))

/-- The remainder for a nonzero divisor: with the sign of the dividend when signed (R135). -/
def remainder (r : Reading) (a b : Value) : Value :=
  match r with
  | .unsigned => BitVec.ofNat 32 (a.toNat % b.toNat)
  | .signed => BitVec.ofInt 32 ((signed a).tmod (signed b))

/-- The one case with no representable quotient: -2^31 and -1 under the signed reading (R135, U3). -/
def divideOverflows (r : Reading) (a b : Value) : Bool :=
  decide (r = .signed) && a == 0x80000000#32 && b == 0xFFFFFFFF#32

/-- Div and Rem (R124, R125, R131, R132): the zero check comes before any write; the unspecified case stops (log 7). -/
def divideInto (f : Reading → Value → Value → Value) (d : RegIndex) (b : Value) (s : State) : Result :=
  if b = 0#32 then .next (s.takeFault divideByZero)
  else if divideOverflows s.params.arithInterp (s.reg d) b then .fault .signedDivideOverflow
  else .next (s.setReg d (f s.params.arithInterp (s.reg d) b))

/-- Min and Max deliver to the ValueRegister, not to the destination (R120, R126). -/
def selectIntoVR (f : Reading → Value → Value → Value) (d : RegIndex) (b : Value) (s : State) : Result :=
  .next (s.setReg VR (f s.params.arithInterp (s.reg d) b))

/-! ### Shifts (R155) -/

/-- Left shift: zeros enter at bit 0. -/
def shiftLeftValue (a : Value) (n : Nat) : Value := a <<< n

/-- Right shift by `SHIFT_RIGHT_KIND`: zeros, or copies of bit 31, enter at bit 31. -/
def shiftRightValue (k : ShiftKind) (a : Value) (n : Nat) : Value :=
  match k with
  | .logical => a >>> n
  | .arithmetic => a.sshiftRight n

/-! ### Half transfers (spec/20_memory.md R54) -/

/-- The lower half of a register image replaced under the nibble by a memory word (R201, R204). -/
def mergeLower (v : Value) (w : Word) (m : Nibble) : Value := cat (hi16 v) (merge16 (lo16 v) w (maskLow m))

/-- The upper half of a register image replaced under the nibble by a memory word (R201, R204). -/
def mergeUpper (v : Value) (w : Word) (m : Nibble) : Value := cat (merge16 (hi16 v) w (maskHigh m)) (lo16 v)

end Sys2Proof.Machine
end

