-- ==== Sys2Proof/Machine/Arithmetic.lean ====
section
/-! DEFINITION. The Arithmetic group (spec/41_arithmetic.md R120 to R135): no flag is read or written, no memory touched. -/

namespace Sys2Proof.Machine

/-- R121: `add rD, rS`; wraps mod 2^32. -/
def execAdd (d src : RegIndex) (s : State) : Result := combineInto (· + ·) d (s.reg src) s

/-- R122: `sub rD, rS`; the destination is the minuend. -/
def execSub (d src : RegIndex) (s : State) : Result := combineInto (· - ·) d (s.reg src) s

/-- R123: `mul rD, rS`; the low 32 bits of the product. -/
def execMul (d src : RegIndex) (s : State) : Result := combineInto (· * ·) d (s.reg src) s

/-- R124: `div rD, rS`. -/
def execDiv (d src : RegIndex) (s : State) : Result := divideInto quotient d (s.reg src) s

/-- R125: `rem rD, rS`. -/
def execRem (d src : RegIndex) (s : State) : Result := divideInto remainder d (s.reg src) s

/-- R126: `min rD, rS`; the result goes to VR. -/
def execMin (d src : RegIndex) (s : State) : Result := selectIntoVR minValue d (s.reg src) s

/-- R127: `max rD, rS`; the result goes to VR. -/
def execMax (d src : RegIndex) (s : State) : Result := selectIntoVR maxValue d (s.reg src) s

/-! ### Immediate forms (R128 to R134): `imm32` was assembled under the nibble by the decoder -/

/-- R128: `addi rD, m, imm32`. -/
def execAddi (d : RegIndex) (_m : Nibble) (imm32 : Value) (s : State) : Result := combineInto (· + ·) d imm32 s

/-- R129: `subi rD, m, imm32`. -/
def execSubi (d : RegIndex) (_m : Nibble) (imm32 : Value) (s : State) : Result := combineInto (· - ·) d imm32 s

/-- R130: `muli rD, m, imm32`. -/
def execMuli (d : RegIndex) (_m : Nibble) (imm32 : Value) (s : State) : Result := combineInto (· * ·) d imm32 s

/-- R131: `divi rD, m, imm32`. -/
def execDivi (d : RegIndex) (_m : Nibble) (imm32 : Value) (s : State) : Result := divideInto quotient d imm32 s

/-- R132: `remi rD, m, imm32`. -/
def execRemi (d : RegIndex) (_m : Nibble) (imm32 : Value) (s : State) : Result := divideInto remainder d imm32 s

/-- R133: `mini rD, m, imm32`; the result goes to VR. -/
def execMini (d : RegIndex) (_m : Nibble) (imm32 : Value) (s : State) : Result := selectIntoVR minValue d imm32 s

/-- R134: `maxi rD, m, imm32`; the result goes to VR. -/
def execMaxi (d : RegIndex) (_m : Nibble) (imm32 : Value) (s : State) : Result := selectIntoVR maxValue d imm32 s

end Sys2Proof.Machine
end

