-- ==== Sys2Proof/Machine/Branch.lean ====
section
/-! DEFINITION. The Branch group (spec/45_branch.md R185 to R193). IP is the post-fetch address when these run. -/

namespace Sys2Proof.Machine

/-- R185: a taken branch without call. -/
def jumpTo (t : Value) (s : State) : Result := .next (s.setReg IP t)

/-- R185: a taken call: the post-fetch IP is pushed on the call stack, then IP takes the target. -/
def callTo (t : Value) (s : State) : Result :=
  ((pushCall (s.reg IP) s).andThen fun _ s => .done () (s.setReg IP t)).finish

/-- R185: a conditional branch whose flag is false does nothing. -/
def whenFlag (k : State → Result) (s : State) : Result := if s.flag then k s else .next s

/-- R186: `jmp rT`. -/
def execJmp (t : RegIndex) (s : State) : Result := jumpTo (s.reg t) s

/-- R187: `jmpi a`. -/
def execJmpi (a : Value) (s : State) : Result := jumpTo a s

/-- R188: `call rT`; the target is read before the push. -/
def execCall (t : RegIndex) (s : State) : Result := callTo (s.reg t) s

/-- R189: `calli a`. -/
def execCalli (a : Value) (s : State) : Result := callTo a s

/-- R190: `jmpc rT`. -/
def execJmpc (t : RegIndex) (s : State) : Result := whenFlag (jumpTo (s.reg t)) s

/-- R191: `jmpci a`. -/
def execJmpci (a : Value) (s : State) : Result := whenFlag (jumpTo a) s

/-- R192: `callc rT`; the target is read before the push. -/
def execCallc (t : RegIndex) (s : State) : Result := whenFlag (callTo (s.reg t)) s

/-- R193: `callci a`. -/
def execCallci (a : Value) (s : State) : Result := whenFlag (callTo a) s

end Sys2Proof.Machine
end

