-- ==== Sys2Proof/Machine/Flags.lean ====
section
/-! DEFINITION. The condition flag: the only flag (spec/10_state.md R32). Its six comparisons and the two flag moves
(spec/44_compare.md R165, R178, R179). -/

namespace Sys2Proof.Machine

/-- R166: equal as 32 bits. -/
def cmpEq (_ : Reading) (a b : Value) : Bool := a == b

/-- R167. -/
def cmpNe (_ : Reading) (a b : Value) : Bool := a != b

/-- R168: `less(a, b)`. -/
def cmpLt (r : Reading) (a b : Value) : Bool := less r a b

/-- R169: `less(b, a)`. -/
def cmpGt (r : Reading) (a b : Value) : Bool := less r b a

/-- R170: `not less(b, a)`. -/
def cmpLe (r : Reading) (a b : Value) : Bool := !less r b a

/-- R171: `not less(a, b)`. -/
def cmpGe (r : Reading) (a b : Value) : Bool := !less r a b

/-- A comparison writes the flag by `COMPARE_INTERP` and nothing else (R165). -/
def compareWith (f : Reading → Value → Value → Bool) (d : RegIndex) (b : Value) (s : State) : Result :=
  .next (s.setFlag (f s.params.compareInterp (s.reg d) b))

/-- R26, R178: a register's truthiness. -/
def truth (v : Value) : Bool := v != 0#32

/-- R179: all ones for true, zero for false. -/
def flagValue (b : Bool) : Value := if b then 0xFFFFFFFF#32 else 0#32

end Sys2Proof.Machine
end

