-- ==== Sys2Proof/Machine/Compare.lean ====
section
/-! DEFINITION. The Compare group (spec/44_compare.md R165 to R179): the comparisons write `flag` and no register. -/

namespace Sys2Proof.Machine

/-- R166: `eq rD, rS`. -/
def execEq (d src : RegIndex) (s : State) : Result := compareWith cmpEq d (s.reg src) s

/-- R167: `ne rD, rS`. -/
def execNe (d src : RegIndex) (s : State) : Result := compareWith cmpNe d (s.reg src) s

/-- R168: `lt rD, rS`. -/
def execLt (d src : RegIndex) (s : State) : Result := compareWith cmpLt d (s.reg src) s

/-- R169: `gt rD, rS`. -/
def execGt (d src : RegIndex) (s : State) : Result := compareWith cmpGt d (s.reg src) s

/-- R170: `le rD, rS`. -/
def execLe (d src : RegIndex) (s : State) : Result := compareWith cmpLe d (s.reg src) s

/-- R171: `ge rD, rS`. -/
def execGe (d src : RegIndex) (s : State) : Result := compareWith cmpGe d (s.reg src) s

/-- R172: `eqi rD, m, imm32`. -/
def execEqi (d : RegIndex) (_m : Nibble) (imm32 : Value) (s : State) : Result := compareWith cmpEq d imm32 s

/-- R173: `nei rD, m, imm32`. -/
def execNei (d : RegIndex) (_m : Nibble) (imm32 : Value) (s : State) : Result := compareWith cmpNe d imm32 s

/-- R174: `lti rD, m, imm32`. -/
def execLti (d : RegIndex) (_m : Nibble) (imm32 : Value) (s : State) : Result := compareWith cmpLt d imm32 s

/-- R175: `gti rD, m, imm32`. -/
def execGti (d : RegIndex) (_m : Nibble) (imm32 : Value) (s : State) : Result := compareWith cmpGt d imm32 s

/-- R176: `lei rD, m, imm32`. -/
def execLei (d : RegIndex) (_m : Nibble) (imm32 : Value) (s : State) : Result := compareWith cmpLe d imm32 s

/-- R177: `gei rD, m, imm32`. -/
def execGei (d : RegIndex) (_m : Nibble) (imm32 : Value) (s : State) : Result := compareWith cmpGe d imm32 s

/-- R178: `mtc rD`. -/
def execMtc (d : RegIndex) (s : State) : Result := .next (s.setFlag (truth (s.reg d)))

/-- R179: `mfc rD`. -/
def execMfc (d : RegIndex) (s : State) : Result := .next (s.setReg d (flagValue s.flag))

end Sys2Proof.Machine
end

