-- ==== Sys2Proof/Machine/Logical.lean ====
section
/-! DEFINITION. The Logical group (spec/42_logical.md R140 to R150): bitwise on 32 bits, then the mask of the destination. -/

namespace Sys2Proof.Machine

/-- R141: `and rD, rS`. -/
def execAnd (d src : RegIndex) (s : State) : Result := combineInto (· &&& ·) d (s.reg src) s

/-- R142: `or rD, rS`. -/
def execOr (d src : RegIndex) (s : State) : Result := combineInto (· ||| ·) d (s.reg src) s

/-- R143: `xor rD, rS`. -/
def execXor (d src : RegIndex) (s : State) : Result := combineInto (· ^^^ ·) d (s.reg src) s

/-- R144: `nand rD, rS`. -/
def execNand (d src : RegIndex) (s : State) : Result := combineInto nandValue d (s.reg src) s

/-- R145: `not rD, rS`; the second operand is ignored, its register is not read. -/
def execNot (d _src : RegIndex) (s : State) : Result := .next (s.setReg d (~~~(s.reg d)))

/-! ### Immediate forms (R146 to R150) -/

/-- R146: `andi rD, m, imm32`. -/
def execAndi (d : RegIndex) (_m : Nibble) (imm32 : Value) (s : State) : Result := combineInto (· &&& ·) d imm32 s

/-- R147: `ori rD, m, imm32`. -/
def execOri (d : RegIndex) (_m : Nibble) (imm32 : Value) (s : State) : Result := combineInto (· ||| ·) d imm32 s

/-- R148: `xori rD, m, imm32`. -/
def execXori (d : RegIndex) (_m : Nibble) (imm32 : Value) (s : State) : Result := combineInto (· ^^^ ·) d imm32 s

/-- R149: `nandi rD, m, imm32`. -/
def execNandi (d : RegIndex) (_m : Nibble) (imm32 : Value) (s : State) : Result := combineInto nandValue d imm32 s

/-- R150: `noti rD, m, imm32`; the immediate was fetched and is ignored. -/
def execNoti (d : RegIndex) (_m : Nibble) (_imm32 : Value) (s : State) : Result := .next (s.setReg d (~~~(s.reg d)))

end Sys2Proof.Machine
end

