-- ==== Sys2Proof/Machine/MemoryGroup.lean ====
section
/-! DEFINITION. The Memory group (spec/46_memory_ops.md R200 to R204). -/

namespace Sys2Proof.Machine

/-- R201: `load m, off`. A half that is not selected makes no access; VR is written last. -/
def execLoad (m : Nibble) (off : BitVec 4) (s : State) : Result :=
  let a := effAddr off s
  let lower : Attempt Value :=
    if lowsel m then (memRead a s).andThen fun w s => .done (mergeLower (s.reg VR) w m) s else .done (s.reg VR) s
  let both := lower.andThen fun v s =>
    if upsel m then (memRead (a + 1#32) s).andThen fun w s => .done (mergeUpper v w m) s else .done v s
  (both.andThen fun v s => .done () (s.setReg VR v)).finish

/-- R202: `store m, off`. The lower word is written before the upper one is attempted. -/
def execStore (m : Nibble) (off : BitVec 4) (s : State) : Result :=
  let a := effAddr off s
  let v := s.reg VR
  let lower : Attempt Unit := if lowsel m then mergeWrite a (lo16 v) (maskLow m) s else .done () s
  (lower.andThen fun _ s => if upsel m then mergeWrite (a + 1#32) (hi16 v) (maskHigh m) s else .done () s).finish

/-- R203: `push m, rN`. The register is read before SP moves; the upper half goes first. -/
def execPush (m : Nibble) (n : RegIndex) (s : State) : Result :=
  let v := s.reg n
  let upper : Attempt Unit := if upsel m then pushHalf SP (hi16 v) (maskHigh m) s else .done () s
  (upper.andThen fun _ s => if lowsel m then pushHalf SP (lo16 v) (maskLow m) s else .done () s).finish

/-- R204: `pop m, rN`. The lower half comes off first; the register is read first and written last. -/
def execPop (m : Nibble) (n : RegIndex) (s : State) : Result :=
  let v := s.reg n
  let lower : Attempt Value :=
    if lowsel m then (popWord SP s).andThen fun w s => .done (mergeLower v w m) s else .done v s
  let both := lower.andThen fun v s =>
    if upsel m then (popWord SP s).andThen fun w s => .done (mergeUpper v w m) s else .done v s
  (both.andThen fun v s => .done () (s.setReg n v)).finish

end Sys2Proof.Machine
end

