-- ==== Sys2Proof/Machine/Misc.lean ====
section
/-! DEFINITION. The Misc group (spec/48_misc.md R225 to R228). -/

namespace Sys2Proof.Machine

/-- R225: `return`: pop a full address off the call stack into IP. -/
def execReturn (s : State) : Result :=
  ((popCall s).andThen fun a s => .done () (s.setReg IP a)).finish

/-- R226: `terminate`: clear `keepExecuting`; `fault` stays as it is. -/
def execTerminate (s : State) : Result := .next s.stop

/-- R227: `getc rD`: the next input byte, zero-extended; with none the core is stuck (U5, log 4). -/
def execGetc (d : RegIndex) (s : State) : Result :=
  match charIn s with
  | some (b, s) => .next (s.setReg d (b.setWidth 32))
  | none => .fault .inputExhausted

/-- R228: `putc rD`: the low eight bits go to the output. -/
def execPutc (d : RegIndex) (s : State) : Result := .next (charOut ((s.reg d).setWidth 8) s)

end Sys2Proof.Machine
end

