-- ==== Sys2Proof/Machine/MoveSetSwap.lean ====
section
/-! DEFINITION. Move, Set and Swap (spec/47_move_set_swap.md R215 to R218). -/

namespace Sys2Proof.Machine

/-- R216: `move m, rD, rS`: the value is restricted to the expanded nibble, the whole destination is replaced (R215). -/
def execMove (m : Nibble) (d src : RegIndex) (s : State) : Result := .next (s.setReg d (s.reg src &&& expand m))

/-- R217: `set m, rD, imm32`; the decoder has restricted `imm32`. -/
def execSet (_m : Nibble) (d : RegIndex) (imm32 : Value) (s : State) : Result := .next (s.setReg d imm32)

/-- R218: `swap rD, rS`: both are read, then each is written through its own mask; nothing when they are one register. -/
def execSwap (d src : RegIndex) (s : State) : Result :=
  if d = src then .next s else .next ((s.setReg d (s.reg src)).setReg src (s.reg d))

end Sys2Proof.Machine
end

