-- ==== Sys2Proof/Machine/Shift.lean ====
section
/-! DEFINITION. The Shift group (spec/43_shift.md R155 to R159). -/

namespace Sys2Proof.Machine

/-- R156: `shr rD, rS`, by the low five bits of `rS`. -/
def execShr (d src : RegIndex) (s : State) : Result :=
  .next (s.setReg d (shiftRightValue s.params.shiftRightKind (s.reg d) (shiftAmount src s)))

/-- R157: `shl rD, rS`, by the low five bits of `rS`. -/
def execShl (d src : RegIndex) (s : State) : Result :=
  .next (s.setReg d (shiftLeftValue (s.reg d) (shiftAmount src s)))

/-- R158: `shri rD, n`. -/
def execShri (d : RegIndex) (n : BitVec 5) (s : State) : Result :=
  .next (s.setReg d (shiftRightValue s.params.shiftRightKind (s.reg d) n.toNat))

/-- R159: `shli rD, n`. -/
def execShli (d : RegIndex) (n : BitVec 5) (s : State) : Result :=
  .next (s.setReg d (shiftLeftValue (s.reg d) n.toNat))

end Sys2Proof.Machine
end

