-- ==== Sys2Proof/Syntax.lean ====
section
/-! DEFINITION. The instructions: one constructor per row of the opcode map (spec/30_encoding.md R93), each carrying the
operand fields of its leaf of the Operation type (R103). Field names follow R103; `imm32` is the assembled immediate. -/

namespace Sys2Proof

/-- An instruction (the Operation type of R103, one constructor per row of R93). -/
inductive Instr where
  -- Memory (R83)
  | load (bitmask : Nibble) (offset : BitVec 4)
  | store (bitmask : Nibble) (offset : BitVec 4)
  | push (bitmask : Nibble) (reg : RegIndex)
  | pop (bitmask : Nibble) (reg : RegIndex)
  -- Arithmetic, register form (R84)
  | add (dest src : RegIndex)
  | sub (dest src : RegIndex)
  | mul (dest src : RegIndex)
  | div (dest src : RegIndex)
  | rem (dest src : RegIndex)
  | min (dest src : RegIndex)
  | max (dest src : RegIndex)
  -- Arithmetic, immediate form (R84, R94)
  | addi (dest : RegIndex) (bitmask : Nibble) (imm32 : Value)
  | subi (dest : RegIndex) (bitmask : Nibble) (imm32 : Value)
  | muli (dest : RegIndex) (bitmask : Nibble) (imm32 : Value)
  | divi (dest : RegIndex) (bitmask : Nibble) (imm32 : Value)
  | remi (dest : RegIndex) (bitmask : Nibble) (imm32 : Value)
  | mini (dest : RegIndex) (bitmask : Nibble) (imm32 : Value)
  | maxi (dest : RegIndex) (bitmask : Nibble) (imm32 : Value)
  -- Shift (R85)
  | shr (dest src : RegIndex)
  | shl (dest src : RegIndex)
  | shri (dest : RegIndex) (amount : BitVec 5)
  | shli (dest : RegIndex) (amount : BitVec 5)
  -- Logical, register form (R86)
  | and (dest src : RegIndex)
  | or (dest src : RegIndex)
  | xor (dest src : RegIndex)
  | nand (dest src : RegIndex)
  | not (dest src : RegIndex)
  -- Logical, immediate form (R86, R94)
  | andi (dest : RegIndex) (bitmask : Nibble) (imm32 : Value)
  | ori (dest : RegIndex) (bitmask : Nibble) (imm32 : Value)
  | xori (dest : RegIndex) (bitmask : Nibble) (imm32 : Value)
  | nandi (dest : RegIndex) (bitmask : Nibble) (imm32 : Value)
  | noti (dest : RegIndex) (bitmask : Nibble) (imm32 : Value)
  -- Compare, register form (R87)
  | eq (dest src : RegIndex)
  | ne (dest src : RegIndex)
  | lt (dest src : RegIndex)
  | gt (dest src : RegIndex)
  | le (dest src : RegIndex)
  | ge (dest src : RegIndex)
  -- Compare, immediate form (R87, R94)
  | eqi (dest : RegIndex) (bitmask : Nibble) (imm32 : Value)
  | nei (dest : RegIndex) (bitmask : Nibble) (imm32 : Value)
  | lti (dest : RegIndex) (bitmask : Nibble) (imm32 : Value)
  | gti (dest : RegIndex) (bitmask : Nibble) (imm32 : Value)
  | lei (dest : RegIndex) (bitmask : Nibble) (imm32 : Value)
  | gei (dest : RegIndex) (bitmask : Nibble) (imm32 : Value)
  -- Compare, flag moves (R87)
  | mtc (dest : RegIndex)
  | mfc (dest : RegIndex)
  -- Branch (R88, R95)
  | jmp (target : RegIndex)
  | jmpi (target32 : Value)
  | call (target : RegIndex)
  | calli (target32 : Value)
  | jmpc (target : RegIndex)
  | jmpci (target32 : Value)
  | callc (target : RegIndex)
  | callci (target32 : Value)
  -- Move, Set, Swap (R89, R90, R91)
  | move (bitmask : Nibble) (dest src : RegIndex)
  | set (bitmask : Nibble) (dest : RegIndex) (imm32 : Value)
  | swap (dest src : RegIndex)
  -- Misc (R92); `ret` is the row `return`
  | ret
  | terminate
  | getc (reg : RegIndex)
  | putc (reg : RegIndex)
deriving DecidableEq, Repr

end Sys2Proof
end

