-- ==== Sys2Proof/Machine/Dispatch.lean ====
section
/-! DEFINITION. The execute phase of every instruction (spec/70_reset_and_hazards.md R272, phase X): one arm per row of the
opcode map. IP is already the post-fetch address. -/

namespace Sys2Proof.Machine

def exec (i : Instr) (s : State) : Host.Outcome State Fault Refusal :=
  match i with
  | .load m off => Sys2Proof.Machine.execLoad m off s
  | .store m off => Sys2Proof.Machine.execStore m off s
  | .push m n => Sys2Proof.Machine.execPush m n s
  | .pop m n => Sys2Proof.Machine.execPop m n s
  | .add d src => Sys2Proof.Machine.execAdd d src s
  | .sub d src => Sys2Proof.Machine.execSub d src s
  | .mul d src => Sys2Proof.Machine.execMul d src s
  | .div d src => Sys2Proof.Machine.execDiv d src s
  | .rem d src => Sys2Proof.Machine.execRem d src s
  | .min d src => Sys2Proof.Machine.execMin d src s
  | .max d src => Sys2Proof.Machine.execMax d src s
  | .addi d m v => Sys2Proof.Machine.execAddi d m v s
  | .subi d m v => Sys2Proof.Machine.execSubi d m v s
  | .muli d m v => Sys2Proof.Machine.execMuli d m v s
  | .divi d m v => Sys2Proof.Machine.execDivi d m v s
  | .remi d m v => Sys2Proof.Machine.execRemi d m v s
  | .mini d m v => Sys2Proof.Machine.execMini d m v s
  | .maxi d m v => Sys2Proof.Machine.execMaxi d m v s
  | .shr d src => Sys2Proof.Machine.execShr d src s
  | .shl d src => Sys2Proof.Machine.execShl d src s
  | .shri d n => Sys2Proof.Machine.execShri d n s
  | .shli d n => Sys2Proof.Machine.execShli d n s
  | .and d src => Sys2Proof.Machine.execAnd d src s
  | .or d src => Sys2Proof.Machine.execOr d src s
  | .xor d src => Sys2Proof.Machine.execXor d src s
  | .nand d src => Sys2Proof.Machine.execNand d src s
  | .not d src => Sys2Proof.Machine.execNot d src s
  | .andi d m v => Sys2Proof.Machine.execAndi d m v s
  | .ori d m v => Sys2Proof.Machine.execOri d m v s
  | .xori d m v => Sys2Proof.Machine.execXori d m v s
  | .nandi d m v => Sys2Proof.Machine.execNandi d m v s
  | .noti d m v => Sys2Proof.Machine.execNoti d m v s
  | .eq d src => Sys2Proof.Machine.execEq d src s
  | .ne d src => Sys2Proof.Machine.execNe d src s
  | .lt d src => Sys2Proof.Machine.execLt d src s
  | .gt d src => Sys2Proof.Machine.execGt d src s
  | .le d src => Sys2Proof.Machine.execLe d src s
  | .ge d src => Sys2Proof.Machine.execGe d src s
  | .eqi d m v => Sys2Proof.Machine.execEqi d m v s
  | .nei d m v => Sys2Proof.Machine.execNei d m v s
  | .lti d m v => Sys2Proof.Machine.execLti d m v s
  | .gti d m v => Sys2Proof.Machine.execGti d m v s
  | .lei d m v => Sys2Proof.Machine.execLei d m v s
  | .gei d m v => Sys2Proof.Machine.execGei d m v s
  | .mtc d => Sys2Proof.Machine.execMtc d s
  | .mfc d => Sys2Proof.Machine.execMfc d s
  | .jmp t => Sys2Proof.Machine.execJmp t s
  | .jmpi a => Sys2Proof.Machine.execJmpi a s
  | .call t => Sys2Proof.Machine.execCall t s
  | .calli a => Sys2Proof.Machine.execCalli a s
  | .jmpc t => Sys2Proof.Machine.execJmpc t s
  | .jmpci a => Sys2Proof.Machine.execJmpci a s
  | .callc t => Sys2Proof.Machine.execCallc t s
  | .callci a => Sys2Proof.Machine.execCallci a s
  | .move m d src => Sys2Proof.Machine.execMove m d src s
  | .set m d v => Sys2Proof.Machine.execSet m d v s
  | .swap d src => Sys2Proof.Machine.execSwap d src s
  | .ret => Sys2Proof.Machine.execReturn s
  | .terminate => Sys2Proof.Machine.execTerminate s
  | .getc d => Sys2Proof.Machine.execGetc d s
  | .putc d => Sys2Proof.Machine.execPutc d s

end Sys2Proof.Machine
end

