-- ==== Sys2Proof/WellFormed.lean ====
section
/-! DEFINITION. Which instructions the decoder can give. Every field but one has exactly the width of its encoding, so
the one check is R103's: "`imm32` is already masked" (spec/30_encoding.md). -/

namespace Sys2Proof

/-- R103, R94: an assembled maskable immediate has no bit outside `expand(m)`. -/
def immMasked (m : Nibble) (imm32 : Value) : Bool := (imm32 &&& expand m) == imm32

/-- The instruction's fields are ones its encoding can carry. -/
def Instr.wellFormed : Instr → Bool
  | .load _ _ | .store _ _ | .push _ _ | .pop _ _ => true
  | .add _ _ | .sub _ _ | .mul _ _ | .div _ _ | .rem _ _ | .min _ _ | .max _ _ => true
  | .addi _ m v | .subi _ m v | .muli _ m v | .divi _ m v | .remi _ m v | .mini _ m v | .maxi _ m v => immMasked m v
  | .shr _ _ | .shl _ _ | .shri _ _ | .shli _ _ => true
  | .and _ _ | .or _ _ | .xor _ _ | .nand _ _ | .not _ _ => true
  | .andi _ m v | .ori _ m v | .xori _ m v | .nandi _ m v | .noti _ m v => immMasked m v
  | .eq _ _ | .ne _ _ | .lt _ _ | .gt _ _ | .le _ _ | .ge _ _ => true
  | .eqi _ m v | .nei _ m v | .lti _ m v | .gti _ m v | .lei _ m v | .gei _ m v => immMasked m v
  | .mtc _ | .mfc _ => true
  | .jmp _ | .jmpi _ | .call _ | .calli _ | .jmpc _ | .jmpci _ | .callc _ | .callci _ => true
  | .move _ _ _ => true
  | .set m _ v => immMasked m v
  | .swap _ _ => true
  | .ret | .terminate | .getc _ | .putc _ => true

end Sys2Proof
end

