-- ==== Sys2Proof/Decode.lean ====
section
/-! DEFINITION. The instruction decoder and the encoder (spec/30_encoding.md). The decoder reads only the fields a format
names (R101: every other bit is ignored) and refuses by name the words R99 and R100 call illegal. -/

namespace Sys2Proof

/-! ### Fields of the first word -/

/-- A field of at most four bits (R6, R82). -/
def nibbleField (w mask : Word) (shift : Nat) : BitVec 4 := (decodeBits w mask shift).setWidth 4

/-- A one-bit flag (R6, R82). -/
def flagField (w mask : Word) (shift : Nat) : Bool := decodeBits w mask shift != 0#16

/-- R81: the opcode, `W[3:0]`. -/
def opField (w : Word) : BitVec 4 := nibbleField w 0x000F#16 0

/-- R82: the field `W[11:8]`. -/
def field11to8 (w : Word) : BitVec 4 := nibbleField w 0x0F00#16 8

/-- R82: the field `W[15:12]`. -/
def field15to12 (w : Word) : BitVec 4 := nibbleField w 0xF000#16 12

/-- R89, R90, R92: the field `W[7:4]`. -/
def field7to4 (w : Word) : BitVec 4 := nibbleField w 0x00F0#16 4

/-- R84, R86, R87: the style, `W[7:5]`. -/
def styleField (w : Word) : BitVec 4 := nibbleField w 0x00E0#16 5

/-- R82: the immediate bit, `W[4]`. -/
def immBit (w : Word) : Bool := flagField w 0x0010#16 4

/-! ### The decoder -/

/-- Why a first word is no instruction. -/
inductive IllegalWord where
  /-- R99: `W[3:0]` is 10 to 15. The machine takes the fault IllegalOpcode (R243). Safe: it is what the spec says. -/
  | illegalOpcode (w : Word)
  /-- R100: a style the group does not define. The machine takes the fault IllegalStyle (R244). Safe: as above. -/
  | illegalStyle (w : Word)
deriving DecidableEq, Repr

/-- Why a list of bytes does not begin with an instruction. -/
inductive DecodeError where
  /-- Its first word is illegal. -/
  | illegal (e : IllegalWord)
  /-- It ends inside the instruction; a core's memory never ends, so only `decodeBytes` says so. Safe. -/
  | truncated
deriving DecidableEq, Repr

/-- What the first word alone says (R98 steps 1 and 2): the whole instruction, or which immediate completes it. -/
inductive FirstWord where
  /-- One word; nothing follows. -/
  | complete (i : Instr)
  /-- A maskable immediate under the nibble `m` (R94): 0, 1 or 2 more words. -/
  | maskable (m : Nibble) (build : Value → Instr)
  /-- A full-width branch immediate (R95): exactly two more words. -/
  | full (build : Value → Instr)

/-- R84, R86, R87: one style of a group, in its register and its immediate form, chosen by the immediate bit. -/
def regOrImm (regForm : RegIndex → RegIndex → Instr) (immForm : RegIndex → Nibble → Value → Instr) (w : Word) :
    FirstWord :=
  if immBit w then .maskable (field15to12 w) (immForm (field11to8 w) (field15to12 w))
  else .complete (regForm (field11to8 w) (field15to12 w))

/-- R88: one call and condition variant of Branch, in its register and its immediate form. -/
def branchForm (regForm : RegIndex → Instr) (immForm : Value → Instr) (w : Word) : FirstWord :=
  if immBit w then .full immForm else .complete (regForm (field11to8 w))

/-- R83: the Memory group; `type` is `W[5:4]`. -/
def decodeMemory (w : Word) : FirstWord :=
  match nibbleField w 0x0030#16 4 with
  | 0#4 => .complete (.load (field11to8 w) (field15to12 w))
  | 1#4 => .complete (.store (field11to8 w) (field15to12 w))
  | 2#4 => .complete (.push (field11to8 w) (field15to12 w))
  | _ => .complete (.pop (field11to8 w) (field15to12 w))

/-- R84, R100: the Arithmetic group. -/
def decodeArithmetic (w : Word) : Except IllegalWord FirstWord :=
  match styleField w with
  | 0#4 => .ok (regOrImm .add .addi w)
  | 1#4 => .ok (regOrImm .sub .subi w)
  | 2#4 => .ok (regOrImm .mul .muli w)
  | 3#4 => .ok (regOrImm .div .divi w)
  | 4#4 => .ok (regOrImm .rem .remi w)
  | 5#4 => .ok (regOrImm .min .mini w)
  | 6#4 => .ok (regOrImm .max .maxi w)
  | _ => .error (.illegalStyle w)

/-- R85: the Shift group; the destination is `W[10:7]` here. -/
def decodeShift (w : Word) : FirstWord :=
  let dest := nibbleField w 0x0780#16 7
  let src := nibbleField w 0x7800#16 11
  let amount := (decodeBits w 0xF800#16 11).setWidth 5
  let left := flagField w 0x0020#16 5
  if immBit w then (if left then .complete (.shli dest amount) else .complete (.shri dest amount))
  else (if left then .complete (.shl dest src) else .complete (.shr dest src))

/-- R86, R100: the Logical group. -/
def decodeLogical (w : Word) : Except IllegalWord FirstWord :=
  match styleField w with
  | 0#4 => .ok (regOrImm .and .andi w)
  | 1#4 => .ok (regOrImm .or .ori w)
  | 2#4 => .ok (regOrImm .xor .xori w)
  | 3#4 => .ok (regOrImm .nand .nandi w)
  | 4#4 => .ok (regOrImm .not .noti w)
  | _ => .error (.illegalStyle w)

/-- R87: the Compare group; the flag moves are one word whatever bit 4 holds. -/
def decodeCompare (w : Word) : FirstWord :=
  match styleField w with
  | 0#4 => regOrImm .eq .eqi w
  | 1#4 => regOrImm .ne .nei w
  | 2#4 => regOrImm .lt .lti w
  | 3#4 => regOrImm .gt .gti w
  | 4#4 => regOrImm .le .lei w
  | 5#4 => regOrImm .ge .gei w
  | 6#4 => .complete (.mtc (field11to8 w))
  | _ => .complete (.mfc (field11to8 w))

/-- R88: the Branch group; `call` is `W[5]`, `cond` is `W[6]`. -/
def decodeBranch (w : Word) : FirstWord :=
  match flagField w 0x0020#16 5, flagField w 0x0040#16 6 with
  | false, false => branchForm .jmp .jmpi w
  | true, false => branchForm .call .calli w
  | false, true => branchForm .jmpc .jmpci w
  | true, true => branchForm .callc .callci w

/-- R92, R100: the Misc group; the style is `W[7:4]`. -/
def decodeMisc (w : Word) : Except IllegalWord FirstWord :=
  match field7to4 w with
  | 0#4 => .ok (.complete .ret)
  | 1#4 => .ok (.complete .terminate)
  | 2#4 => .ok (.complete (.getc (field11to8 w)))
  | 3#4 => .ok (.complete (.putc (field11to8 w)))
  | _ => .error (.illegalStyle w)

/-- R98 steps 1 and 2: the opcode check, then the style check and the fields, by group (R81). -/
def decodeFirst (w : Word) : Except IllegalWord FirstWord :=
  match opField w with
  | 0#4 => .ok (decodeMemory w)
  | 1#4 => decodeArithmetic w
  | 2#4 => .ok (decodeShift w)
  | 3#4 => decodeLogical w
  | 4#4 => .ok (decodeCompare w)
  | 5#4 => .ok (decodeBranch w)
  | 6#4 => .ok (.complete (.move (field7to4 w) (field11to8 w) (field15to12 w)))
  | 7#4 => .ok (.maskable (field7to4 w) (.set (field7to4 w) (field11to8 w)))
  | 8#4 => .ok (.complete (.swap (field11to8 w) (field15to12 w)))
  | 9#4 => decodeMisc w
  | _ => .error (.illegalOpcode w)

/-- R94: how many words a maskable immediate takes. -/
def maskableWords (m : Nibble) : Nat := (lowsel m).toNat + (upsel m).toNat

/-- How many words follow the first (R94, R95). -/
def FirstWord.extraWords : FirstWord → Nat
  | .complete _ => 0
  | .maskable m _ => maskableWords m
  | .full _ => 2

/-- R94: the maskable immediate from the words that follow the first, "consumed, in order": when only the upper half is
selected its word is the one that directly follows. -/
def maskableImm (m : Nibble) (w1 w2 : Word) : Value :=
  maskedImm m (if lowsel m then w1 else 0#16) (if upsel m then (if lowsel m then w2 else w1) else 0#16)

/-- R98 steps 3 and 4: the instruction, given the two words after the first (those beyond its length are not looked at). -/
def FirstWord.finish (w1 w2 : Word) : FirstWord → Instr
  | .complete i => i
  | .maskable m build => build (maskableImm m w1 w2)
  | .full build => build (cat w2 w1)

/-- R104: decoding as a pure function of at most three words. -/
def decode (w0 w1 w2 : Word) : Except IllegalWord Instr :=
  match decodeFirst w0 with
  | .ok first => .ok (first.finish w1 w2)
  | .error e => .error e

/-- R97: the length of an instruction, in words, as a function of its first word: 1 for a word that is no instruction. -/
def instrLength (w : Word) : Nat :=
  match opField w with
  | 1#4 => if immBit w && decide (styleField w ≤ 6#4) then 1 + maskableWords (field15to12 w) else 1
  | 3#4 => if immBit w && decide (styleField w ≤ 4#4) then 1 + maskableWords (field15to12 w) else 1
  | 4#4 => if immBit w && decide (styleField w ≤ 5#4) then 1 + maskableWords (field15to12 w) else 1
  | 7#4 => 1 + maskableWords (field7to4 w)
  | 5#4 => if immBit w then 3 else 1
  | _ => 1

/-- Decode the instruction at the front of a list of bytes; answer it with the bytes after it. Total on any bytes. -/
def decodeBytes : List Byte → Except DecodeError (Instr × List Byte)
  | b0 :: b1 :: rest =>
    match decodeFirst (combine b0 b1) with
    | .error e => .error (.illegal e)
    | .ok first =>
      match first.extraWords, rest with
      | 0, rest => .ok (first.finish 0#16 0#16, rest)
      | 1, b2 :: b3 :: rest => .ok (first.finish (combine b2 b3) 0#16, rest)
      | 2, b2 :: b3 :: b4 :: b5 :: rest => .ok (first.finish (combine b2 b3) (combine b4 b5), rest)
      | _, _ => .error .truncated
  | _ => .error .truncated

/-- The three words of an opcode-table word `w` of `nbits` bits: bit 0 is the least significant bit of the first word, a
later word's bits count on from it, and every bit above `nbits` is 0. -/
def tableWords (nbits w : Nat) : List Word :=
  let bits := w % 2 ^ nbits
  [BitVec.ofNat 16 bits, BitVec.ofNat 16 (bits / 2 ^ 16), BitVec.ofNat 16 (bits / 2 ^ 32)]

/-- The instruction the decoder reads from an opcode-table word. -/
def decodeTableWord (nbits w : Nat) : Option Instr :=
  match decodeBytes (bytesOfWords (tableWords nbits w)) with
  | .ok (i, _) => some i
  | .error _ => none

/-! ### The encoder (R107) -/

/-- R84, R86, R87: the first word of Arithmetic, Logical and Compare. -/
def firstAlu (op : Word) (imm : Bool) (style : Word) (dest second : BitVec 4) : Word :=
  let w := encodeBits 0#16 op 0x000F#16 0
  let w := encodeBits w (if imm then 1#16 else 0#16) 0x0010#16 4
  let w := encodeBits w style 0x00E0#16 5
  let w := encodeBits w (dest.setWidth 16) 0x0F00#16 8
  encodeBits w (second.setWidth 16) 0xF000#16 12

/-- R83: the first word of Memory. -/
def firstMemory (type : Word) (bitmask second : BitVec 4) : Word :=
  let w := encodeBits 0#16 0#16 0x000F#16 0
  let w := encodeBits w type 0x0030#16 4
  let w := encodeBits w (bitmask.setWidth 16) 0x0F00#16 8
  encodeBits w (second.setWidth 16) 0xF000#16 12

/-- R85: the first word of Shift, without the amount. -/
def firstShift (imm left : Bool) (dest : RegIndex) : Word :=
  let w := encodeBits 0#16 2#16 0x000F#16 0
  let w := encodeBits w (if imm then 1#16 else 0#16) 0x0010#16 4
  let w := encodeBits w (if left then 1#16 else 0#16) 0x0020#16 5
  encodeBits w (dest.setWidth 16) 0x0780#16 7

/-- R85: the register form: the amount register at `W[14:11]`. -/
def firstShiftReg (left : Bool) (dest src : RegIndex) : Word :=
  encodeBits (firstShift false left dest) (src.setWidth 16) 0x7800#16 11

/-- R85: the immediate form: the amount at `W[15:11]`. -/
def firstShiftImm (left : Bool) (dest : RegIndex) (amount : BitVec 5) : Word :=
  encodeBits (firstShift true left dest) (amount.setWidth 16) 0xF800#16 11

/-- R88: the first word of Branch. -/
def firstBranch (imm call cond : Bool) (target : RegIndex) : Word :=
  let w := encodeBits 0#16 5#16 0x000F#16 0
  let w := encodeBits w (if imm then 1#16 else 0#16) 0x0010#16 4
  let w := encodeBits w (if call then 1#16 else 0#16) 0x0020#16 5
  let w := encodeBits w (if cond then 1#16 else 0#16) 0x0040#16 6
  encodeBits w (target.setWidth 16) 0x0F00#16 8

/-- R89 to R92: the first word of Move, Set, Swap and Misc: the opcode and the three nibbles above it. -/
def firstNibbles (op : Word) (n7to4 n11to8 n15to12 : BitVec 4) : Word :=
  let w := encodeBits 0#16 op 0x000F#16 0
  let w := encodeBits w (n7to4.setWidth 16) 0x00F0#16 4
  let w := encodeBits w (n11to8.setWidth 16) 0x0F00#16 8
  encodeBits w (n15to12.setWidth 16) 0xF000#16 12

/-- R107: the words of a maskable immediate, unmasked: the lower half if selected, then the upper half if selected. -/
def immWords (m : Nibble) (imm32 : Value) : List Word :=
  (if lowsel m then [lo16 imm32] else []) ++ (if upsel m then [hi16 imm32] else [])

/-- R107: a first word with the words of its maskable immediate. -/
def withImm (first : Word) (m : Nibble) (imm32 : Value) : List Word := first :: immWords m imm32

/-- R107: a first word with the two words of a branch immediate, `lo16` then `hi16`. -/
def withTarget (first : Word) (a : Value) : List Word := [first, lo16 a, hi16 a]

/-- R107: the canonical encoding of an instruction; ignored bits are 0. (`not` and `noti` encode the second operand they
carry; R145 and R150 let an assembler choose it, log 21.) -/
def encode : Instr → List Word
  | .load m off => [firstMemory 0#16 m off]
  | .store m off => [firstMemory 1#16 m off]
  | .push m n => [firstMemory 2#16 m n]
  | .pop m n => [firstMemory 3#16 m n]
  | .add d s => [firstAlu 1#16 false 0#16 d s]
  | .sub d s => [firstAlu 1#16 false 1#16 d s]
  | .mul d s => [firstAlu 1#16 false 2#16 d s]
  | .div d s => [firstAlu 1#16 false 3#16 d s]
  | .rem d s => [firstAlu 1#16 false 4#16 d s]
  | .min d s => [firstAlu 1#16 false 5#16 d s]
  | .max d s => [firstAlu 1#16 false 6#16 d s]
  | .addi d m v => withImm (firstAlu 1#16 true 0#16 d m) m v
  | .subi d m v => withImm (firstAlu 1#16 true 1#16 d m) m v
  | .muli d m v => withImm (firstAlu 1#16 true 2#16 d m) m v
  | .divi d m v => withImm (firstAlu 1#16 true 3#16 d m) m v
  | .remi d m v => withImm (firstAlu 1#16 true 4#16 d m) m v
  | .mini d m v => withImm (firstAlu 1#16 true 5#16 d m) m v
  | .maxi d m v => withImm (firstAlu 1#16 true 6#16 d m) m v
  | .shr d s => [firstShiftReg false d s]
  | .shl d s => [firstShiftReg true d s]
  | .shri d n => [firstShiftImm false d n]
  | .shli d n => [firstShiftImm true d n]
  | .and d s => [firstAlu 3#16 false 0#16 d s]
  | .or d s => [firstAlu 3#16 false 1#16 d s]
  | .xor d s => [firstAlu 3#16 false 2#16 d s]
  | .nand d s => [firstAlu 3#16 false 3#16 d s]
  | .not d s => [firstAlu 3#16 false 4#16 d s]
  | .andi d m v => withImm (firstAlu 3#16 true 0#16 d m) m v
  | .ori d m v => withImm (firstAlu 3#16 true 1#16 d m) m v
  | .xori d m v => withImm (firstAlu 3#16 true 2#16 d m) m v
  | .nandi d m v => withImm (firstAlu 3#16 true 3#16 d m) m v
  | .noti d m v => withImm (firstAlu 3#16 true 4#16 d m) m v
  | .eq d s => [firstAlu 4#16 false 0#16 d s]
  | .ne d s => [firstAlu 4#16 false 1#16 d s]
  | .lt d s => [firstAlu 4#16 false 2#16 d s]
  | .gt d s => [firstAlu 4#16 false 3#16 d s]
  | .le d s => [firstAlu 4#16 false 4#16 d s]
  | .ge d s => [firstAlu 4#16 false 5#16 d s]
  | .eqi d m v => withImm (firstAlu 4#16 true 0#16 d m) m v
  | .nei d m v => withImm (firstAlu 4#16 true 1#16 d m) m v
  | .lti d m v => withImm (firstAlu 4#16 true 2#16 d m) m v
  | .gti d m v => withImm (firstAlu 4#16 true 3#16 d m) m v
  | .lei d m v => withImm (firstAlu 4#16 true 4#16 d m) m v
  | .gei d m v => withImm (firstAlu 4#16 true 5#16 d m) m v
  | .mtc d => [firstAlu 4#16 false 6#16 d 0#4]
  | .mfc d => [firstAlu 4#16 false 7#16 d 0#4]
  | .jmp t => [firstBranch false false false t]
  | .jmpi a => withTarget (firstBranch true false false 0#4) a
  | .call t => [firstBranch false true false t]
  | .calli a => withTarget (firstBranch true true false 0#4) a
  | .jmpc t => [firstBranch false false true t]
  | .jmpci a => withTarget (firstBranch true false true 0#4) a
  | .callc t => [firstBranch false true true t]
  | .callci a => withTarget (firstBranch true true true 0#4) a
  | .move m d s => [firstNibbles 6#16 m d s]
  | .set m d v => withImm (firstNibbles 7#16 m d 0#4) m v
  | .swap d s => [firstNibbles 8#16 0#4 d s]
  | .ret => [firstNibbles 9#16 0#4 0#4 0#4]
  | .terminate => [firstNibbles 9#16 1#4 0#4 0#4]
  | .getc d => [firstNibbles 9#16 2#4 d 0#4]
  | .putc d => [firstNibbles 9#16 3#4 d 0#4]

/-- R93: the instruction's row of the opcode map, as (mask, match): a first word `W` selects the row when
`W & mask = match`. -/
def Instr.row : Instr → Word × Word
  | .load _ _ => (0x003F#16, 0x0000#16)
  | .store _ _ => (0x003F#16, 0x0010#16)
  | .push _ _ => (0x003F#16, 0x0020#16)
  | .pop _ _ => (0x003F#16, 0x0030#16)
  | .add _ _ => (0x00FF#16, 0x0001#16)
  | .sub _ _ => (0x00FF#16, 0x0021#16)
  | .mul _ _ => (0x00FF#16, 0x0041#16)
  | .div _ _ => (0x00FF#16, 0x0061#16)
  | .rem _ _ => (0x00FF#16, 0x0081#16)
  | .min _ _ => (0x00FF#16, 0x00A1#16)
  | .max _ _ => (0x00FF#16, 0x00C1#16)
  | .addi _ _ _ => (0x00FF#16, 0x0011#16)
  | .subi _ _ _ => (0x00FF#16, 0x0031#16)
  | .muli _ _ _ => (0x00FF#16, 0x0051#16)
  | .divi _ _ _ => (0x00FF#16, 0x0071#16)
  | .remi _ _ _ => (0x00FF#16, 0x0091#16)
  | .mini _ _ _ => (0x00FF#16, 0x00B1#16)
  | .maxi _ _ _ => (0x00FF#16, 0x00D1#16)
  | .shr _ _ => (0x003F#16, 0x0002#16)
  | .shl _ _ => (0x003F#16, 0x0022#16)
  | .shri _ _ => (0x003F#16, 0x0012#16)
  | .shli _ _ => (0x003F#16, 0x0032#16)
  | .and _ _ => (0x00FF#16, 0x0003#16)
  | .or _ _ => (0x00FF#16, 0x0023#16)
  | .xor _ _ => (0x00FF#16, 0x0043#16)
  | .nand _ _ => (0x00FF#16, 0x0063#16)
  | .not _ _ => (0x00FF#16, 0x0083#16)
  | .andi _ _ _ => (0x00FF#16, 0x0013#16)
  | .ori _ _ _ => (0x00FF#16, 0x0033#16)
  | .xori _ _ _ => (0x00FF#16, 0x0053#16)
  | .nandi _ _ _ => (0x00FF#16, 0x0073#16)
  | .noti _ _ _ => (0x00FF#16, 0x0093#16)
  | .eq _ _ => (0x00FF#16, 0x0004#16)
  | .ne _ _ => (0x00FF#16, 0x0024#16)
  | .lt _ _ => (0x00FF#16, 0x0044#16)
  | .gt _ _ => (0x00FF#16, 0x0064#16)
  | .le _ _ => (0x00FF#16, 0x0084#16)
  | .ge _ _ => (0x00FF#16, 0x00A4#16)
  | .eqi _ _ _ => (0x00FF#16, 0x0014#16)
  | .nei _ _ _ => (0x00FF#16, 0x0034#16)
  | .lti _ _ _ => (0x00FF#16, 0x0054#16)
  | .gti _ _ _ => (0x00FF#16, 0x0074#16)
  | .lei _ _ _ => (0x00FF#16, 0x0094#16)
  | .gei _ _ _ => (0x00FF#16, 0x00B4#16)
  | .mtc _ => (0x00EF#16, 0x00C4#16)
  | .mfc _ => (0x00EF#16, 0x00E4#16)
  | .jmp _ => (0x007F#16, 0x0005#16)
  | .jmpi _ => (0x007F#16, 0x0015#16)
  | .call _ => (0x007F#16, 0x0025#16)
  | .calli _ => (0x007F#16, 0x0035#16)
  | .jmpc _ => (0x007F#16, 0x0045#16)
  | .jmpci _ => (0x007F#16, 0x0055#16)
  | .callc _ => (0x007F#16, 0x0065#16)
  | .callci _ => (0x007F#16, 0x0075#16)
  | .move _ _ _ => (0x000F#16, 0x0006#16)
  | .set _ _ _ => (0x000F#16, 0x0007#16)
  | .swap _ _ => (0x000F#16, 0x0008#16)
  | .ret => (0x00FF#16, 0x0009#16)
  | .terminate => (0x00FF#16, 0x0019#16)
  | .getc _ => (0x00FF#16, 0x0029#16)
  | .putc _ => (0x00FF#16, 0x0039#16)

end Sys2Proof
end

