-- ==== Sys2Proof/Machine/Fetch.lean ====
section
/-! DEFINITION. Fetch and decode from memory, one `nextWord()` at a time (spec/30_encoding.md R98), and where the next
instruction's words lie (R104). -/

namespace Sys2Proof.Machine

/-- R98: the fault an illegal first word raises: its cause, and the word zero-extended (spec/60_exceptions.md R240). -/
def decodeFault : IllegalWord → FaultRecord
  | .illegalOpcode w => { cause := .illegalOpcode, info := w.setWidth 32 }
  | .illegalStyle w => { cause := .illegalStyle, info := w.setWidth 32 }

/-- R94: one half of a maskable immediate: the next word if the half is selected, else zero. -/
def fetchHalf (selected : Bool) (s : State) : Attempt Word := if selected then nextWord s else .done 0#16 s

/-- R98 step 3: fetch what the form still needs, and build the instruction. -/
def fetchRest (first : FirstWord) (s : State) : Attempt Instr :=
  match first with
  | .complete i => .done i s
  | .maskable m build =>
    (fetchHalf (lowsel m) s).andThen fun lower s =>
      (fetchHalf (upsel m) s).andThen fun upper s => .done (build (maskedImm m lower upper)) s
  | .full build =>
    (nextWord s).andThen fun lower s => (nextWord s).andThen fun upper s => .done (build (cat upper lower)) s

/-- R98: fetch and decode one instruction; both decode faults are raised before a further word is fetched. -/
def fetchInstr (s : State) : Attempt Instr :=
  (nextWord s).andThen fun w s =>
    match decodeFirst w with
    | .ok first => fetchRest first s
    | .error e => .raised (decodeFault e) s

/-- R104: the address of the `k`-th word at IP, modulo CAPACITY. -/
def fetchAddr (s : State) (k : Value) : Value := (s.reg IP + k) &&& addrMask s.params

/-- R104: `w0`, `w1`, `w2`, the words at IP. -/
def fetchWord (s : State) (k : Value) : Word := s.mem.readWord (fetchAddr s k).toNat

/-- The state with three words placed where the next instruction is fetched, and Running. The first word is written last:
with CAPACITY 2 it shares its cell with the third. -/
def placeWords (s : State) (w0 w1 w2 : Word) : State :=
  let m := s.mem.writeWord (fetchAddr s 2#32).toNat w2
  let m := m.writeWord (fetchAddr s 1#32).toNat w1
  let m := m.writeWord (fetchAddr s 0#32).toNat w0
  { s with mem := m, keepExecuting := true }

/-- The state with an opcode-table word placed at IP (log 15). -/
def placeTableWord (s : State) (nbits w : Nat) : State :=
  match tableWords nbits w with
  | [w0, w1, w2] => placeWords s w0 w1 w2
  | _ => s

end Sys2Proof.Machine
end

