-- ==== Sys2Proof/Machine/Step.lean ====
section
/-! DEFINITION. One step: fetch, decode, execute (spec/70_reset_and_hazards.md R271, R272). -/

namespace Sys2Proof.Machine

/-- R271: one iteration of the run loop. A Halted core executes nothing (R280, log 6); a fault raised by the decoder is
taken as any other (R246). -/
def step (s : State) : Result :=
  if s.keepExecuting then
    match fetchInstr s with
    | .done i s' => exec i s'
    | .raised f s' => .next (s'.takeFault f)
  else .fault .halted

/-- The state with an opcode-table word (every bit above `nbits` zero) stored where `step` fetches its next instruction. -/
def State.withFetchWord (s : State) (nbits w : Nat) : State := placeTableWord s nbits w

end Sys2Proof.Machine
end

