-- ==== Sys2Proof/Machine/HostAccess.lean ====
section
/-! DEFINITION. What the host may do to a core that is not inside `run()`: the four accessors and the binary image
(spec/70_reset_and_hazards.md R274, R275). None of these is a step. -/

namespace Sys2Proof.Machine

/-- R274: `readMemory(a)`; an out-of-range address is reported to the host and leaves the core as it is. -/
def hostReadMemory (a : Value) (s : State) : Except FaultRecord Word :=
  match memRead a s with
  | .done w _ => .ok w
  | .raised f _ => .error f

/-- R274: `writeMemory(a, w)`; an out-of-range address is reported to the host and leaves the core as it is. -/
def hostWriteMemory (a : Value) (w : Word) (s : State) : Except FaultRecord State :=
  match memWrite a w s with
  | .done _ s' => .ok s'
  | .raised f _ => .error f

/-- R29, R274: a host's register index is reduced modulo the size of the register file. -/
def hostIndex (i : Nat) : RegIndex := BitVec.ofNat 4 (i % 16)

/-- R274: `getRegister(i)`. -/
def hostGetRegister (i : Nat) (s : State) : Value := s.reg (hostIndex i)

/-- R274: `setRegister(i, v)`, masked by the register's mask. -/
def hostSetRegister (i : Nat) (v : Value) (s : State) : State := s.setReg (hostIndex i) v

/-- R275: the length of this core's image, in bytes. -/
def imageLength (p : Params) : Nat := 64 + 2 * p.capacity

/-- R275: the 16-bit word at byte `k` of an image. -/
def imageWord (img : List Byte) (k : Nat) : Word := combine (img.getD k 0#8) (img.getD (k + 1) 0#8)

/-- R275: register `i` of an image: bytes `4i` to `4i + 3`, least significant first. -/
def imageRegister (img : List Byte) (i : Nat) : Value := cat (imageWord img (4 * i + 2)) (imageWord img (4 * i))

/-- R275: install the first `n` registers of an image. -/
def installRegisters (img : List Byte) : Nat → State → State
  | 0, s => s
  | n + 1, s => hostSetRegister n (imageRegister img n) (installRegisters img n s)

/-- R275: install the first `n` cells of an image; a cell that does not exist is not written. -/
def installCells (img : List Byte) : Nat → State → State
  | 0, s => s
  | n + 1, s =>
    match hostWriteMemory (BitVec.ofNat 32 n) (imageWord img (64 + 2 * n)) (installCells img n s) with
    | .ok s' => s'
    | .error _ => installCells img n s

/-- R275: install an image; one of the wrong length is refused by the host tool (`none`). `flag`, `keepExecuting` and
`fault` stay as they are. -/
def installImage (img : List Byte) (s : State) : Option State :=
  if img.length = imageLength s.params then
    some (installCells img s.params.capacity (installRegisters img 16 s))
  else none

/-- R275: the bytes of the registers, `r0` first. -/
def dumpRegisters (s : State) : List Byte :=
  (List.range 16).flatMap fun i => bytesOfWords [lo16 (hostGetRegister i s), hi16 (hostGetRegister i s)]

/-- R275: the bytes of the cells, cell 0 first. -/
def dumpCells (s : State) : List Byte :=
  (List.range s.params.capacity).flatMap fun a => bytesOfWords [s.mem.readWord a]

/-- R275: dump an image. -/
def dumpImage (s : State) : List Byte := dumpRegisters s ++ dumpCells s

end Sys2Proof.Machine
end

