-- ==== Sys2Proof/Machine/RunLoop.lean ====
section
/-! DEFINITION. `run()`, bounded by fuel (spec/70_reset_and_hazards.md R271, R273, R280). -/

namespace Sys2Proof.Machine

/-- How a bounded `run()` ends. -/
inductive RunOutcome where
  /-- The loop ended: the core is Halted in this state, and `run()` returns its `fault` (R271). -/
  | returned (s : State)
  /-- The fuel ran out on a Running core; the spec's loop would go on. -/
  | running (s : State)
  /-- The model stopped inside a step. -/
  | stopped (r : Fault)
  /-- An instruction has no meaning. -/
  | refused (r : Refusal)

/-- R271: `while keepExecuting do step()`; the test comes first, so a Halted core executes nothing (R280). -/
def run (fuel : Nat) (s : State) : RunOutcome :=
  match fuel with
  | 0 => if s.keepExecuting then .running s else .returned s
  | fuel + 1 =>
    if s.keepExecuting then
      match step s with
      | .next s' => run fuel s'
      | .fault r => .stopped r
      | .refused r => .refused r
    else .returned s

end Sys2Proof.Machine
end

