-- ==== Sys2Proof/Safety.lean ====
section
/-! DEFINITION. The terms claims use: the invariant of a core, what an instruction leaves unchanged, and the rules' own
formulas for the values and words they name, written apart from the meanings. -/

namespace Sys2Proof.Machine

/-! ### The invariant -/

/-- R23: every register holds only bits of its mask. -/
def State.Masked (s : State) : Prop := ∀ i : RegIndex, s.reg i &&& regmask s.params i = s.reg i

/-- R35: only cells 0 to CAPACITY - 1 exist. -/
def State.MemInRange (s : State) : Prop := ∀ c ∈ s.mem, c.1 < 2 * s.params.capacity

/-- What holds of a core at reset and after every step: the registers are masked (R23), the memory is in its canonical
form and inside the address space (R35), and a Running core has no recorded fault (R33, R34, R246). -/
structure State.Inv (s : State) : Prop where
  masked : s.Masked
  memWf : s.mem.wf
  memInRange : s.MemInRange
  runningClean : s.keepExecuting = true → s.fault = none

/-! ### What is left unchanged -/

/-- Everything of `t` is as in `s`, but for the listed registers and the bytes of the listed memory words (word `a` is
bytes `2a` and `2a + 1`). -/
structure Frame (regs : List RegIndex) (words : List Nat) (s t : State) : Prop where
  reg : ∀ i, i ∉ regs → t.reg i = s.reg i
  byte : ∀ a, a / 2 ∉ words → t.mem.readByte a = s.mem.readByte a
  flag : t.flag = s.flag
  keepExecuting : t.keepExecuting = s.keepExecuting
  fault : t.fault = s.fault
  params : t.params = s.params
  input : t.input = s.input
  output : t.output = s.output

/-- `x[d] <- v` and nothing else (R27): the register holds `v` under its mask. -/
def RegWritten (d : RegIndex) (v : Value) (s t : State) : Prop :=
  t.reg d = v &&& regmask s.params d ∧ Frame [d] [] s t

/-- `flag <- b` and nothing else (R32). -/
def FlagWritten (b : Bool) (s t : State) : Prop := Frame [] [] { s with flag := b } t

/-- `raise f` and nothing else (R246): the record is written, the core is Halted, all else is as before. -/
def FaultTaken (f : FaultRecord) (s t : State) : Prop :=
  Frame [] [] { s with fault := some f, keepExecuting := false } t

/-- Nothing changes. -/
def NothingChanged (s t : State) : Prop := Frame [] [] s t

/-- R185: the state after a taken call: the post-fetch IP lies on the call stack, its upper half at the first decremented
CSP and its lower half at the second; IP holds the target; nothing else changes. -/
def CallTaken (target : Value) (s t : State) : Prop :=
  let s1 := s.decr CSP 1#32
  let s2 := s1.decr CSP 1#32
  t.reg IP = target &&& addrMask s.params ∧ t.reg CSP = s2.reg CSP ∧
  t.mem.readWord (s1.reg CSP).toNat = hi16 (s.reg IP) ∧ t.mem.readWord (s2.reg CSP).toNat = lo16 (s.reg IP) ∧
  Frame [IP, CSP] [(s1.reg CSP).toNat, (s2.reg CSP).toNat] s t

/-! ### The rules' own formulas -/

/-- A first word as the rules write it: `base | a << 8 | b << 12`. -/
def ruleWord (base : Word) (a b : BitVec 4) : Word := base ||| (a.setWidth 16 <<< 8) ||| (b.setWidth 16 <<< 12)

/-- The word is the one-word instruction `i`, whatever follows it. -/
def OneWord (w : Word) (i : Instr) : Prop := instrLength w = 1 ∧ ∀ w1 w2, decode w w1 w2 = .ok i

/-- R94: the word begins `build imm32` under the nibble `m`; the words that follow are consumed in order, the lower half
first, an absent half is zero, and the immediate is restricted to the expanded nibble. -/
def ImmWords (w : Word) (m : Nibble) (build : Value → Instr) : Prop :=
  instrLength w = 1 + (lowsel m).toNat + (upsel m).toNat ∧
  ∀ w1 w2, decode w w1 w2 = .ok (build
    (match lowsel m, upsel m with
      | false, false => 0#32
      | true, false => cat 0#16 w1 &&& expand m
      | false, true => cat w1 0#16 &&& expand m
      | true, true => cat w2 w1 &&& expand m))

/-- R95: the word begins `build target32`, with exactly two more words, low half first. -/
def TargetWords (w : Word) (build : Value → Instr) : Prop :=
  instrLength w = 3 ∧ ∀ w1 w2, decode w w1 w2 = .ok (build (cat w2 w1))

/-- R168: `less` under a reading. -/
def below (r : Reading) (a b : Value) : Bool := if r = .unsigned then a.ult b else a.slt b

/-- R135: `floor(a / b)`, or `sign(A) * sign(B) * floor(|A| / |B|)`, modulo 2^32. -/
def ruleQuotient (r : Reading) (a b : Value) : Value :=
  if r = .unsigned then BitVec.ofNat 32 (a.toNat / b.toNat)
  else BitVec.ofInt 32 (a.toInt.sign * b.toInt.sign * ((a.toInt.natAbs / b.toInt.natAbs : Nat) : Int))

/-- R135: `a - b * floor(a / b)`, or `A - Q * B`, modulo 2^32. -/
def ruleRemainder (r : Reading) (a b : Value) : Value :=
  if r = .unsigned then BitVec.ofInt 32 (a.toNat - b.toNat * ((a.toNat / b.toNat : Nat) : Int))
  else BitVec.ofInt 32
    (a.toInt - a.toInt.sign * b.toInt.sign * ((a.toInt.natAbs / b.toInt.natAbs : Nat) : Int) * b.toInt)

/-- R135: the operands for which the signed reading has no representable quotient. -/
def Unrepresentable (r : Reading) (a b : Value) : Prop := r = .signed ∧ a.toInt = -2 ^ 31 ∧ b.toInt = -1

/-- R155: `(a << n) mod 2^32`. -/
def ruleShiftLeft (a : Value) (n : Nat) : Value := BitVec.ofNat 32 (a.toNat * 2 ^ n)

/-- R155: `floor(a / 2^n)`, or `floor(signed(a) / 2^n) mod 2^32`. -/
def ruleShiftRight (k : ShiftKind) (a : Value) (n : Nat) : Value :=
  if k = .logical then BitVec.ofNat 32 (a.toNat / 2 ^ n) else BitVec.ofInt 32 (a.toInt / 2 ^ n)

/-- R54: the bytes under the expanded nibble come from `new`, the rest stay. -/
def ruleMerge (old new : Value) (m : Nibble) : Value := (old &&& ~~~expand m) ||| (new &&& expand m)

/-- R100: a style its group does not define, by the bits of the first word. -/
def UndefinedStyle (w : Word) : Prop :=
  (w &&& 0x000F#16 = 1#16 ∧ (w >>> 5) &&& 7#16 = 7#16) ∨
  (w &&& 0x000F#16 = 3#16 ∧ 5#16 ≤ (w >>> 5) &&& 7#16) ∨
  (w &&& 0x000F#16 = 9#16 ∧ 4#16 ≤ (w >>> 4) &&& 0x000F#16)

/-- R202: the words a store accesses. -/
def storeWords (m : Nibble) (off : BitVec 4) (s : State) : List Nat :=
  (if lowsel m then [(effAddr off s).toNat] else []) ++ (if upsel m then [(effAddr off s + 1#32).toNat] else [])

/-- R32: the instructions that write the condition flag: the twelve comparisons and MoveToCondition. -/
def writesFlag : Instr → Bool
  | .eq _ _ | .ne _ _ | .lt _ _ | .gt _ _ | .le _ _ | .ge _ _ => true
  | .eqi _ _ _ | .nei _ _ _ | .lti _ _ _ | .gti _ _ _ | .lei _ _ _ | .gei _ _ _ => true
  | .mtc _ => true
  | _ => false

end Sys2Proof.Machine
end

