-- ==== Sys2Proof/Certificates/Slice0/Obligations.lean ====
section
/-! DEFINITION. The statements for the provers, from the numbered rules of spec/. A meaning runs in the execute phase: IP is
already the post-fetch address. -/

open Sys2Proof Sys2Proof.Machine

/-! ### The codec -/

/-- R10: what the byte halves and their combination are, and the round-trip laws: a field that fits comes back, a word is its
bytes, a value is its halves. -/
def Obligations.CodecRoundTrip : Prop :=
  (∀ (n : Nat) (x f m : BitVec n) (k : Nat), (f <<< k) >>> k = f → (f <<< k) &&& m = f <<< k →
    decodeBits (encodeBits x f m k) m k = f) ∧
  (∀ v : Word, lowerHalf v = v.extractLsb' 0 8 ∧ upperHalf v = v.extractLsb' 8 8) ∧
  (∀ l u : Byte, combine l u = u ++ l) ∧
  (∀ v : Word, combine (lowerHalf v) (upperHalf v) = v) ∧
  (∀ v : Value, cat (hi16 v) (lo16 v) = v)

/-- R12: bit `i` of the nibble gates byte `i` of the 32-bit mask (that assignment is the spec's decision D9, log 10). -/
def Obligations.NibbleGatesBytes : Prop :=
  ∀ (m : Nibble) (k : Nat), k < 32 → (expand m).getLsbD k = m.getLsbD (k / 8)

/-! ### Encoding and decoding -/

/-- R107, R103: decoding the bytes of the canonical encoding of a well-formed instruction gives the instruction back and
leaves the bytes that follow (the spec's inference "Decoding a canonical encoding gives back the same Operation", log 10). -/
def Obligations.DecodeOfEncodeIsSelf : Prop :=
  ∀ (i : Instr) (rest : List Byte), i.wellFormed = true →
    decodeBytes (bytesOfWords (encode i) ++ rest) = .ok (i, rest)

/-- R103: what the decoder gives is well-formed: its `imm32` is already masked (log 10). -/
def Obligations.DecodedIsWellFormed : Prop :=
  ∀ (w0 w1 w2 : Word) (i : Instr), decode w0 w1 w2 = .ok i → i.wellFormed = true

/-- R93: a first word selects a row of the opcode map, by its mask and match, exactly when it decodes to that row's
instruction. The map's numbers are the spec's decisions D5 to D7 (log 10). -/
def Obligations.OpcodeMapSelectsRow : Prop :=
  ∀ (w0 w1 w2 : Word) (j : Instr),
    w0 &&& j.row.1 = j.row.2 ↔ ∃ i, decode w0 w1 w2 = .ok i ∧ i.row = j.row

/-- R99, R100: the first words that are no instruction, and by which name each is refused. The split between the two names
is the spec's decision D7 (log 10). -/
def Obligations.IllegalFirstWords : Prop :=
  ∀ (w0 w1 w2 : Word),
    (decode w0 w1 w2 = .error (.illegalOpcode w0) ↔ 10#16 ≤ w0 &&& 0x000F#16) ∧
    (decode w0 w1 w2 = .error (.illegalStyle w0) ↔ UndefinedStyle w0) ∧
    (∀ e, decode w0 w1 w2 = .error e → e = .illegalOpcode w0 ∨ e = .illegalStyle w0)

/-- R97: the length read off the first word is one plus the words its form still needs; it is 1 for an illegal word, whatever
its immediate bit (the spec's inference from R94, R95 and R98, log 10). -/
def Obligations.LengthFromFirstWord : Prop :=
  ∀ w : Word,
    (∀ first, decodeFirst w = .ok first → instrLength w = 1 + first.extraWords) ∧
    (∀ e, decodeFirst w = .error e → instrLength w = 1)

/-- Words of section 2.2 of spec/95_test_vectors.md, written out from the encoding, decode as they are classified there
(vectors the spec derives from its own field layout, log 10). -/
def Obligations.SampleWordsDecode : Prop :=
  decode 0x0000#16 0#16 0#16 = .ok (.load 0#4 0#4) ∧
  decode 0x3311#16 0x1234#16 0#16 = .ok (.addi 3#4 0b0011#4 0x1234#32) ∧
  decode 0xC311#16 0x1234#16 0#16 = .ok (.addi 3#4 0b1100#4 0x12340000#32) ∧
  decode 0x0015#16 0x0040#16 0x0002#16 = .ok (.jmpi 0x00020040#32) ∧
  decode 0xF3D4#16 0#16 0#16 = .ok (.mtc 3#4) ∧
  decode 0x90E2#16 0#16 0#16 = .ok (.shl 1#4 2#4) ∧
  decode 0xF0F1#16 0#16 0#16 = .error (.illegalStyle 0xF0F1#16) ∧
  decode 0xFFFF#16 0#16 0#16 = .error (.illegalOpcode 0xFFFF#16)

/-! ### The step -/

/-- R104, R271: on a Running core whose registers are masked, when the words at IP decode to `i`, the step is the execute
phase of `i` with IP advanced, through its mask, by the length of the instruction. One step is one instruction (log 17). -/
def Obligations.StepRunsDecodedInstruction : Prop :=
  ∀ (s : State) (i : Instr), s.Masked → s.keepExecuting = true →
    decode (fetchWord s 0#32) (fetchWord s 1#32) (fetchWord s 2#32) = .ok i →
    step s = exec i (s.incr IP (BitVec.ofNat 32 (instrLength (fetchWord s 0#32))))

/-- R243, R99: a first word with opcode 10 to 15 raises IllegalOpcode; IP is one past it. That the word is the recorded
information is the spec's decision D23 (log 8). -/
def Obligations.StepTakesIllegalOpcode : Prop :=
  ∀ s : State, s.Masked → s.keepExecuting = true → 10#16 ≤ fetchWord s 0#32 &&& 0x000F#16 →
    ∃ t, step s = .next t ∧
      FaultTaken { cause := .illegalOpcode, info := (fetchWord s 0#32).setWidth 32 } (s.incr IP 1#32) t

/-- R244, R100: a first word of a defined group with an undefined style raises IllegalStyle with the word; IP is one past
it, whatever the immediate bit. The split between the two causes is the spec's decision D7, the recorded word D23 (log 8). -/
def Obligations.StepTakesIllegalStyle : Prop :=
  ∀ s : State, s.Masked → s.keepExecuting = true → UndefinedStyle (fetchWord s 0#32) →
    ∃ t, step s = .next t ∧
      FaultTaken { cause := .illegalStyle, info := (fetchWord s 0#32).setWidth 32 } (s.incr IP 1#32) t

/-- R273, R280: a Halted core executes nothing: `run` returns the core as it is, whatever the fuel (the spec's decision
D34). That one further `step` is a stop of the model, `Fault.halted`, is the model's reading of U1 (log 6). -/
def Obligations.HaltedCoreRunsNothing : Prop :=
  ∀ s : State, s.keepExecuting = false → step s = .fault .halted ∧ ∀ fuel, run fuel s = .returned s

/-- R273: a Running core becomes Halted only by `terminate`, with no fault recorded, or by a fault, recorded (the spec's
decisions D23 and D25, log 8). -/
def Obligations.HaltsOnlyByTerminateOrFault : Prop :=
  ∀ s t : State, s.Inv → s.keepExecuting = true → step s = .next t → t.keepExecuting = false →
    t.fault ≠ none ∨
    (t.fault = none ∧ decode (fetchWord s 0#32) (fetchWord s 1#32) (fetchWord s 2#32) = .ok .terminate)

/-! ### Reset and invariants -/

/-- R35, R38, R25: what reset leaves, by the source: every word of memory zero, Running, and the masks of the registers;
at R5's default the capacity is 2^24. -/
def Obligations.ResetLeavesSourceValues : Prop :=
  (∀ p : Params,
    (∀ a, (State.resetWith p).mem.readWord a = 0#16) ∧
    (State.resetWith p).keepExecuting = true ∧
    (State.resetWith p).params = p ∧
    (∀ i : RegIndex, 12#4 ≤ i → (regmask p i).toNat = p.capacity - 1) ∧
    (∀ i : RegIndex, i < 12#4 → regmask p i = 0xFFFFFFFF#32)) ∧
  State.reset = State.resetWith Params.standard ∧ Params.standard.capacity = 2 ^ 24

/-- R38: what reset leaves by the spec's decision D4, not by the source (log 9): every register 0, the flag false, no fault.
The empty character stream is the model's own choice (log 3). -/
def Obligations.ResetLeavesChosenValues : Prop :=
  ∀ p : Params,
    (∀ i, (State.resetWith p).reg i = 0#32) ∧ (State.resetWith p).flag = false ∧ (State.resetWith p).fault = none ∧
    (State.resetWith p).input = [] ∧ (State.resetWith p).output = []

/-- The invariant holds at reset, whatever the parameters (register values at reset: the spec's decision D4, log 9). -/
def Obligations.InvariantAtReset : Prop := ∀ p : Params, (State.resetWith p).Inv

/-- R23, R35, R246: from every state that meets the invariant, a step gives a state that meets it. That memory is a canonical
list of bytes, and that a Running core has no fault on record, are the model's own clauses (logs 2 and 8). -/
def Obligations.StepKeepsInvariant : Prop := ∀ s t : State, s.Inv → step s = .next t → t.Inv

/-- R20, R25: no step changes CAPACITY, the masks or the three readings (held in State by the model's choice, log 1). -/
def Obligations.StepKeepsParameters : Prop := ∀ s t : State, step s = .next t → t.params = s.params

/-- Every instruction answers a next state, but where the spec leaves none: `getc` with no input byte (U5, log 4), and the
quotient and remainder of -2^31 by -1 under the signed reading (R135, U3, log 7). None is refused. -/
def Obligations.StopsOnlyWhereSpecStops : Prop :=
  ∀ (i : Instr) (s : State),
    (∃ t, exec i s = .next t) ∨
    (exec i s = .fault .inputExhausted ∧ s.input = [] ∧ ∃ d, i = .getc d) ∨
    (exec i s = .fault .signedDivideOverflow ∧ ∃ d : RegIndex,
      (∃ src, (i = .div d src ∨ i = .rem d src) ∧ Unrepresentable s.params.arithInterp (s.reg d) (s.reg src)) ∨
      (∃ m v, (i = .divi d m v ∨ i = .remi d m v) ∧ Unrepresentable s.params.arithInterp (s.reg d) v))

/-- R32, R181: only the comparisons and MoveToCondition change the condition flag ("nothing else changes it"). -/
def Obligations.OnlyCompareWritesFlag : Prop :=
  ∀ (i : Instr) (s t : State), exec i s = .next t → t.flag ≠ s.flag → writesFlag i = true

/-- R60, R241: with masked registers only `load` and `store` raise IllegalAddress, and only for an address at or above
CAPACITY, which is what they record. That the sum is not masked is the spec's decision D16, the record D23 (logs 8, 24). -/
def Obligations.IllegalAddressOnlyFromLoadStore : Prop :=
  ∀ (i : Instr) (s t : State) (a : Value), s.Masked → s.fault = none → exec i s = .next t →
    t.fault = some { cause := .illegalAddress, info := a } →
    s.params.capacity ≤ a.toNat ∧ ∃ m off, i = .load m off ∨ i = .store m off

/-- R245: no step raises BadBitmaskIndex; the model keeps the constructor (log 22). -/
def Obligations.BadBitmaskNeverRaised : Prop :=
  ∀ (s t : State) (v : Value), s.fault = none → step s = .next t →
    t.fault ≠ some { cause := .badBitmaskIndex, info := v }

/-! ### Arithmetic -/

/-- R121, R122, R123: `add`, `sub`, `mul` in the register form: the encoding, the result, and nothing else. -/
def Obligations.AddSubMulRegister : Prop :=
  ∀ (d src : RegIndex) (s : State),
    (OneWord (ruleWord 0x0001#16 d src) (.add d src) ∧
      ∃ t, exec (.add d src) s = .next t ∧ RegWritten d (s.reg d + s.reg src) s t) ∧
    (OneWord (ruleWord 0x0021#16 d src) (.sub d src) ∧
      ∃ t, exec (.sub d src) s = .next t ∧ RegWritten d (s.reg d - s.reg src) s t) ∧
    (OneWord (ruleWord 0x0041#16 d src) (.mul d src) ∧
      ∃ t, exec (.mul d src) s = .next t ∧ RegWritten d (s.reg d * s.reg src) s t)

/-- R128, R129, R130: `addi`, `subi`, `muli`. -/
def Obligations.AddSubMulImmediate : Prop :=
  ∀ (d : RegIndex) (m : Nibble) (v : Value) (s : State),
    (ImmWords (ruleWord 0x0011#16 d m) m (.addi d m) ∧
      ∃ t, exec (.addi d m v) s = .next t ∧ RegWritten d (s.reg d + v) s t) ∧
    (ImmWords (ruleWord 0x0031#16 d m) m (.subi d m) ∧
      ∃ t, exec (.subi d m v) s = .next t ∧ RegWritten d (s.reg d - v) s t) ∧
    (ImmWords (ruleWord 0x0051#16 d m) m (.muli d m) ∧
      ∃ t, exec (.muli d m v) s = .next t ∧ RegWritten d (s.reg d * v) s t)

/-- R124, R125, R135: `div` and `rem` with a nonzero divisor and a representable quotient, under either reading. That a
parameter gives the reading and that the signed one rounds toward zero are the spec's decisions D11 and D12 (log 20). -/
def Obligations.DivRemRegister : Prop :=
  ∀ (d src : RegIndex) (s : State), s.reg src ≠ 0#32 →
    ¬ Unrepresentable s.params.arithInterp (s.reg d) (s.reg src) →
    (OneWord (ruleWord 0x0061#16 d src) (.div d src) ∧
      ∃ t, exec (.div d src) s = .next t ∧
        RegWritten d (ruleQuotient s.params.arithInterp (s.reg d) (s.reg src)) s t) ∧
    (OneWord (ruleWord 0x0081#16 d src) (.rem d src) ∧
      ∃ t, exec (.rem d src) s = .next t ∧
        RegWritten d (ruleRemainder s.params.arithInterp (s.reg d) (s.reg src)) s t)

/-- R131, R132, R135: `divi` and `remi` with a nonzero immediate and a representable quotient. Rounding as in the register
forms (the spec's decision D12). -/
def Obligations.DivRemImmediate : Prop :=
  ∀ (d : RegIndex) (m : Nibble) (v : Value) (s : State), v ≠ 0#32 →
    ¬ Unrepresentable s.params.arithInterp (s.reg d) v →
    (ImmWords (ruleWord 0x0071#16 d m) m (.divi d m) ∧
      ∃ t, exec (.divi d m v) s = .next t ∧ RegWritten d (ruleQuotient s.params.arithInterp (s.reg d) v) s t) ∧
    (ImmWords (ruleWord 0x0091#16 d m) m (.remi d m) ∧
      ∃ t, exec (.remi d m v) s = .next t ∧ RegWritten d (ruleRemainder s.params.arithInterp (s.reg d) v) s t)

/-- R242: a zero second operand raises DivideByZero, before any write, under either reading. The record's information word 0
is the spec's decision D23 (log 8). -/
def Obligations.DivideByZeroTaken : Prop :=
  ∀ (d src : RegIndex) (m : Nibble) (s : State),
    (s.reg src = 0#32 →
      (∃ t, exec (.div d src) s = .next t ∧ FaultTaken { cause := .divideByZero, info := 0#32 } s t) ∧
      (∃ t, exec (.rem d src) s = .next t ∧ FaultTaken { cause := .divideByZero, info := 0#32 } s t)) ∧
    (∃ t, exec (.divi d m 0#32) s = .next t ∧ FaultTaken { cause := .divideByZero, info := 0#32 } s t) ∧
    (∃ t, exec (.remi d m 0#32) s = .next t ∧ FaultTaken { cause := .divideByZero, info := 0#32 } s t)

/-- R135, U3: -2^31 by -1 under the signed reading is unspecified; the model stops by its own name (log 7), never with the
wrapped value and never with DivideByZero. -/
def Obligations.SignedDivideOverflowStops : Prop :=
  ∀ (d src : RegIndex) (m : Nibble) (v : Value) (s : State),
    (Unrepresentable s.params.arithInterp (s.reg d) (s.reg src) →
      exec (.div d src) s = .fault .signedDivideOverflow ∧ exec (.rem d src) s = .fault .signedDivideOverflow) ∧
    (Unrepresentable s.params.arithInterp (s.reg d) v →
      exec (.divi d m v) s = .fault .signedDivideOverflow ∧ exec (.remi d m v) s = .fault .signedDivideOverflow)

/-- R126, R127: `min` and `max`: the result goes to VR, not to the destination. -/
def Obligations.MinMaxRegister : Prop :=
  ∀ (d src : RegIndex) (s : State),
    (OneWord (ruleWord 0x00A1#16 d src) (.min d src) ∧
      ∃ t, exec (.min d src) s = .next t ∧
        RegWritten VR (if below s.params.arithInterp (s.reg d) (s.reg src) then s.reg d else s.reg src) s t) ∧
    (OneWord (ruleWord 0x00C1#16 d src) (.max d src) ∧
      ∃ t, exec (.max d src) s = .next t ∧
        RegWritten VR (if below s.params.arithInterp (s.reg d) (s.reg src) then s.reg src else s.reg d) s t)

/-- R133, R134: `mini` and `maxi`. -/
def Obligations.MinMaxImmediate : Prop :=
  ∀ (d : RegIndex) (m : Nibble) (v : Value) (s : State),
    (ImmWords (ruleWord 0x00B1#16 d m) m (.mini d m) ∧
      ∃ t, exec (.mini d m v) s = .next t ∧
        RegWritten VR (if below s.params.arithInterp (s.reg d) v then s.reg d else v) s t) ∧
    (ImmWords (ruleWord 0x00D1#16 d m) m (.maxi d m) ∧
      ∃ t, exec (.maxi d m v) s = .next t ∧
        RegWritten VR (if below s.params.arithInterp (s.reg d) v then v else s.reg d) s t)

/-! ### Logical -/

/-- R141 to R144: `and`, `or`, `xor`, `nand` in the register form. With them the result of `not`, which ignores its second
operand (R145, but for the encoder's choice of that operand, log 21). -/
def Obligations.LogicalRegister : Prop :=
  ∀ (d src : RegIndex) (s : State),
    (OneWord (ruleWord 0x0003#16 d src) (.and d src) ∧
      ∃ t, exec (.and d src) s = .next t ∧ RegWritten d (s.reg d &&& s.reg src) s t) ∧
    (OneWord (ruleWord 0x0023#16 d src) (.or d src) ∧
      ∃ t, exec (.or d src) s = .next t ∧ RegWritten d (s.reg d ||| s.reg src) s t) ∧
    (OneWord (ruleWord 0x0043#16 d src) (.xor d src) ∧
      ∃ t, exec (.xor d src) s = .next t ∧ RegWritten d (s.reg d ^^^ s.reg src) s t) ∧
    (OneWord (ruleWord 0x0063#16 d src) (.nand d src) ∧
      ∃ t, exec (.nand d src) s = .next t ∧ RegWritten d (~~~(s.reg d &&& s.reg src)) s t) ∧
    (OneWord (ruleWord 0x0083#16 d src) (.not d src) ∧
      ∃ t, exec (.not d src) s = .next t ∧ RegWritten d (~~~(s.reg d)) s t)

/-- R146 to R150: the immediate forms; `noti` fetches its immediate and ignores it (the spec's decision D21). -/
def Obligations.LogicalImmediate : Prop :=
  ∀ (d : RegIndex) (m : Nibble) (v : Value) (s : State),
    (ImmWords (ruleWord 0x0013#16 d m) m (.andi d m) ∧
      ∃ t, exec (.andi d m v) s = .next t ∧ RegWritten d (s.reg d &&& v) s t) ∧
    (ImmWords (ruleWord 0x0033#16 d m) m (.ori d m) ∧
      ∃ t, exec (.ori d m v) s = .next t ∧ RegWritten d (s.reg d ||| v) s t) ∧
    (ImmWords (ruleWord 0x0053#16 d m) m (.xori d m) ∧
      ∃ t, exec (.xori d m v) s = .next t ∧ RegWritten d (s.reg d ^^^ v) s t) ∧
    (ImmWords (ruleWord 0x0073#16 d m) m (.nandi d m) ∧
      ∃ t, exec (.nandi d m v) s = .next t ∧ RegWritten d (~~~(s.reg d &&& v)) s t) ∧
    (ImmWords (ruleWord 0x0093#16 d m) m (.noti d m) ∧
      ∃ t, exec (.noti d m v) s = .next t ∧ RegWritten d (~~~(s.reg d)) s t)

/-! ### Shift -/

/-- R156, R157: `shr` and `shl` by the low five bits of the amount register (the spec's decision D13, log 12), the right shift
by `SHIFT_RIGHT_KIND` (D11); bits 6 and 15 of the word are ignored. -/
def Obligations.ShiftRegister : Prop :=
  ∀ (d src : RegIndex) (x : Word) (s : State),
    (OneWord (0x0002#16 ||| (d.setWidth 16 <<< 7) ||| (src.setWidth 16 <<< 11) ||| (x &&& 0x8040#16)) (.shr d src) ∧
      ∃ t, exec (.shr d src) s = .next t ∧
        RegWritten d (ruleShiftRight s.params.shiftRightKind (s.reg d) ((s.reg src).toNat % 32)) s t) ∧
    (OneWord (0x0022#16 ||| (d.setWidth 16 <<< 7) ||| (src.setWidth 16 <<< 11) ||| (x &&& 0x8040#16)) (.shl d src) ∧
      ∃ t, exec (.shl d src) s = .next t ∧ RegWritten d (ruleShiftLeft (s.reg d) ((s.reg src).toNat % 32)) s t)

/-- R158, R159: `shri` and `shli` by the 5-bit amount; bit 6 of the word is ignored. -/
def Obligations.ShiftImmediate : Prop :=
  ∀ (d : RegIndex) (n : BitVec 5) (x : Word) (s : State),
    (OneWord (0x0012#16 ||| (d.setWidth 16 <<< 7) ||| (n.setWidth 16 <<< 11) ||| (x &&& 0x0040#16)) (.shri d n) ∧
      ∃ t, exec (.shri d n) s = .next t ∧
        RegWritten d (ruleShiftRight s.params.shiftRightKind (s.reg d) n.toNat) s t) ∧
    (OneWord (0x0032#16 ||| (d.setWidth 16 <<< 7) ||| (n.setWidth 16 <<< 11) ||| (x &&& 0x0040#16)) (.shli d n) ∧
      ∃ t, exec (.shli d n) s = .next t ∧ RegWritten d (ruleShiftLeft (s.reg d) n.toNat) s t)

/-! ### Compare -/

/-- R166 to R171: the six comparisons in the register form write the flag and nothing else. -/
def Obligations.CompareRegister : Prop :=
  ∀ (d src : RegIndex) (s : State),
    let a := s.reg d
    let b := s.reg src
    let less := below s.params.compareInterp
    (OneWord (ruleWord 0x0004#16 d src) (.eq d src) ∧
      ∃ t, exec (.eq d src) s = .next t ∧ FlagWritten (decide (a = b)) s t) ∧
    (OneWord (ruleWord 0x0024#16 d src) (.ne d src) ∧
      ∃ t, exec (.ne d src) s = .next t ∧ FlagWritten (decide (a ≠ b)) s t) ∧
    (OneWord (ruleWord 0x0044#16 d src) (.lt d src) ∧
      ∃ t, exec (.lt d src) s = .next t ∧ FlagWritten (less a b) s t) ∧
    (OneWord (ruleWord 0x0064#16 d src) (.gt d src) ∧
      ∃ t, exec (.gt d src) s = .next t ∧ FlagWritten (less b a) s t) ∧
    (OneWord (ruleWord 0x0084#16 d src) (.le d src) ∧
      ∃ t, exec (.le d src) s = .next t ∧ FlagWritten (!less b a) s t) ∧
    (OneWord (ruleWord 0x00A4#16 d src) (.ge d src) ∧
      ∃ t, exec (.ge d src) s = .next t ∧ FlagWritten (!less a b) s t)

/-- R172 to R177: the six comparisons in the immediate form. -/
def Obligations.CompareImmediate : Prop :=
  ∀ (d : RegIndex) (m : Nibble) (b : Value) (s : State),
    let a := s.reg d
    let less := below s.params.compareInterp
    (ImmWords (ruleWord 0x0014#16 d m) m (.eqi d m) ∧
      ∃ t, exec (.eqi d m b) s = .next t ∧ FlagWritten (decide (a = b)) s t) ∧
    (ImmWords (ruleWord 0x0034#16 d m) m (.nei d m) ∧
      ∃ t, exec (.nei d m b) s = .next t ∧ FlagWritten (decide (a ≠ b)) s t) ∧
    (ImmWords (ruleWord 0x0054#16 d m) m (.lti d m) ∧
      ∃ t, exec (.lti d m b) s = .next t ∧ FlagWritten (less a b) s t) ∧
    (ImmWords (ruleWord 0x0074#16 d m) m (.gti d m) ∧
      ∃ t, exec (.gti d m b) s = .next t ∧ FlagWritten (less b a) s t) ∧
    (ImmWords (ruleWord 0x0094#16 d m) m (.lei d m) ∧
      ∃ t, exec (.lei d m b) s = .next t ∧ FlagWritten (!less b a) s t) ∧
    (ImmWords (ruleWord 0x00B4#16 d m) m (.gei d m) ∧
      ∃ t, exec (.gei d m b) s = .next t ∧ FlagWritten (!less a b) s t)

/-- R178, R179: `mtc` writes the register's truthiness to the flag; `mfc` writes all ones or zero, masked, to the register.
Bit 4 and bits 15:12 of the word are ignored, and both are one word (the spec's decision D20). -/
def Obligations.MoveToAndFromCondition : Prop :=
  ∀ (d : RegIndex) (x : Word) (s : State),
    (OneWord (ruleWord 0x00C4#16 d 0#4 ||| (x &&& 0xF010#16)) (.mtc d) ∧
      ∃ t, exec (.mtc d) s = .next t ∧ FlagWritten (decide (s.reg d ≠ 0#32)) s t) ∧
    (OneWord (ruleWord 0x00E4#16 d 0#4 ||| (x &&& 0xF010#16)) (.mfc d) ∧
      ∃ t, exec (.mfc d) s = .next t ∧ RegWritten d (if s.flag then 0xFFFFFFFF#32 else 0#32) s t)

/-! ### Branch -/

/-- R186, R187: `jmp` and `jmpi` write the masked target to IP and nothing else; the other bits of the word are ignored. -/
def Obligations.JumpAlways : Prop :=
  ∀ (r : RegIndex) (a : Value) (x : Word) (s : State),
    (OneWord (ruleWord 0x0005#16 r 0#4 ||| (x &&& 0xF080#16)) (.jmp r) ∧
      ∃ t, exec (.jmp r) s = .next t ∧ RegWritten IP (s.reg r) s t) ∧
    (TargetWords (0x0015#16 ||| (x &&& 0xFF80#16)) .jmpi ∧
      ∃ t, exec (.jmpi a) s = .next t ∧ RegWritten IP a s t)

/-- R190, R191: `jmpc` and `jmpci` jump when the flag is true and do nothing when it is false. -/
def Obligations.JumpWhenFlag : Prop :=
  ∀ (r : RegIndex) (a : Value) (x : Word) (s : State),
    (OneWord (ruleWord 0x0045#16 r 0#4 ||| (x &&& 0xF080#16)) (.jmpc r) ∧
      ∃ t, exec (.jmpc r) s = .next t ∧
        (if s.flag then RegWritten IP (s.reg r) s t else NothingChanged s t)) ∧
    (TargetWords (0x0055#16 ||| (x &&& 0xFF80#16)) .jmpci ∧
      ∃ t, exec (.jmpci a) s = .next t ∧ (if s.flag then RegWritten IP a s t else NothingChanged s t))

/-- R188, R189: `call` and `calli` push the post-fetch IP on the call stack, the upper half first (the spec's decision D17),
and jump; the register target is read before the push (D18). -/
def Obligations.CallAlways : Prop :=
  ∀ (r : RegIndex) (a : Value) (x : Word) (s : State),
    (OneWord (ruleWord 0x0025#16 r 0#4 ||| (x &&& 0xF080#16)) (.call r) ∧
      ∃ t, exec (.call r) s = .next t ∧ CallTaken (s.reg r) s t) ∧
    (TargetWords (0x0035#16 ||| (x &&& 0xFF80#16)) .calli ∧
      ∃ t, exec (.calli a) s = .next t ∧ CallTaken a s t)

/-- R192, R193: `callc` and `callci` call when the flag is true and push nothing when it is false (the spec's decision D19). -/
def Obligations.CallWhenFlag : Prop :=
  ∀ (r : RegIndex) (a : Value) (x : Word) (s : State),
    (OneWord (ruleWord 0x0065#16 r 0#4 ||| (x &&& 0xF080#16)) (.callc r) ∧
      ∃ t, exec (.callc r) s = .next t ∧ (if s.flag then CallTaken (s.reg r) s t else NothingChanged s t)) ∧
    (TargetWords (0x0075#16 ||| (x &&& 0xFF80#16)) .callci ∧
      ∃ t, exec (.callci a) s = .next t ∧ (if s.flag then CallTaken a s t else NothingChanged s t))

/-- R225, R185: `return` after a call resumes at the pushed address with both stack pointers as before the call, whatever
IP the fetch of the `return` left, and leaves the memory as the call left it (order of the halves: decision D17, log 24). -/
def Obligations.CallThenReturnResumes : Prop :=
  ∀ (r : RegIndex) (a ip : Value) (s : State), s.Masked →
    (∃ t u, exec (.calli a) s = .next t ∧ exec .ret (t.setReg IP ip) = .next u ∧
      u.reg IP = s.reg IP ∧ u.reg CSP = s.reg CSP ∧ u.reg SP = s.reg SP ∧ u.mem = t.mem) ∧
    (∃ t u, exec (.call r) s = .next t ∧ exec .ret (t.setReg IP ip) = .next u ∧
      u.reg IP = s.reg IP ∧ u.reg CSP = s.reg CSP ∧ u.reg SP = s.reg SP ∧ u.mem = t.mem)

/-! ### Memory -/

/-- R201, R54: `load` with every selected half in range merges the two words at `AR + off` into VR under the nibble; the
nibble 0 makes no access and changes nothing. Merging is the spec's decision D16. -/
def Obligations.LoadCompletes : Prop :=
  ∀ (m : Nibble) (off : BitVec 4) (x : Word) (s : State),
    (lowsel m = true → (effAddr off s).toNat < s.params.capacity) →
    (upsel m = true → (effAddr off s + 1#32).toNat < s.params.capacity) →
    OneWord (ruleWord 0x0000#16 m off ||| (x &&& 0x00C0#16)) (.load m off) ∧
    ∃ t, exec (.load m off) s = .next t ∧
      RegWritten VR
        (ruleMerge (s.reg VR)
          (cat (s.mem.readWord (effAddr off s + 1#32).toNat) (s.mem.readWord (effAddr off s).toNat)) m) s t

/-- R201, R241: `load` raises IllegalAddress for the first selected half at or above CAPACITY; VR is unchanged. The unmasked
sum is the spec's decision D16, the record D23 (logs 8, 24). -/
def Obligations.LoadRaisesIllegalAddress : Prop :=
  ∀ (m : Nibble) (off : BitVec 4) (s : State),
    (lowsel m = true → s.params.capacity ≤ (effAddr off s).toNat →
      ∃ t, exec (.load m off) s = .next t ∧
        FaultTaken { cause := .illegalAddress, info := effAddr off s } s t) ∧
    ((lowsel m = true → (effAddr off s).toNat < s.params.capacity) → upsel m = true →
      s.params.capacity ≤ (effAddr off s + 1#32).toNat →
      ∃ t, exec (.load m off) s = .next t ∧
        FaultTaken { cause := .illegalAddress, info := effAddr off s + 1#32 } s t)

/-- R202, R54: `store` with every selected half in range merges each half of VR into its word at `AR + off` under the
nibble; every other byte, and every register, is unchanged. The unmasked sum and the merge are decision D16 (log 24). -/
def Obligations.StoreCompletes : Prop :=
  ∀ (m : Nibble) (off : BitVec 4) (x : Word) (s : State),
    (lowsel m = true → (effAddr off s).toNat < s.params.capacity) →
    (upsel m = true → (effAddr off s + 1#32).toNat < s.params.capacity) →
    OneWord (ruleWord 0x0010#16 m off ||| (x &&& 0x00C0#16)) (.store m off) ∧
    ∃ t, exec (.store m off) s = .next t ∧ Frame [] (storeWords m off s) s t ∧
      (lowsel m = true → t.mem.readWord (effAddr off s).toNat =
        merge16 (s.mem.readWord (effAddr off s).toNat) (lo16 (s.reg VR)) (maskLow m)) ∧
      (upsel m = true → t.mem.readWord (effAddr off s + 1#32).toNat =
        merge16 (s.mem.readWord (effAddr off s + 1#32).toNat) (hi16 (s.reg VR)) (maskHigh m))

/-- R202, R248: `store` raises IllegalAddress for the first selected half at or above CAPACITY: with the lower word out of
range nothing is written; with only the upper word out of range the lower word has been written (decisions D16 and D23,
logs 8, 13, 24). -/
def Obligations.StoreRaisesIllegalAddress : Prop :=
  ∀ (m : Nibble) (off : BitVec 4) (s : State),
    (lowsel m = true → s.params.capacity ≤ (effAddr off s).toNat →
      ∃ t, exec (.store m off) s = .next t ∧
        FaultTaken { cause := .illegalAddress, info := effAddr off s } s t) ∧
    ((lowsel m = true → (effAddr off s).toNat < s.params.capacity) → upsel m = true →
      s.params.capacity ≤ (effAddr off s + 1#32).toNat →
      ∃ t, exec (.store m off) s = .next t ∧
        Frame [] (if lowsel m then [(effAddr off s).toNat] else [])
          { s with
            fault := some { cause := .illegalAddress, info := effAddr off s + 1#32 }
            keepExecuting := false } t ∧
        (lowsel m = true → t.mem.readWord (effAddr off s).toNat =
          merge16 (s.mem.readWord (effAddr off s).toNat) (lo16 (s.reg VR)) (maskLow m)))

/-- R203: `push` pre-decrements SP once per selected half, the upper half first (the spec's decision D17), merges each half
into its cell, and reads the register before SP moves (D18); it always completes. -/
def Obligations.PushCompletes : Prop :=
  ∀ (m : Nibble) (n : RegIndex) (x : Word) (s : State),
    let s1 := if upsel m then s.decr SP 1#32 else s
    let s2 := if lowsel m then s1.decr SP 1#32 else s1
    OneWord (ruleWord 0x0020#16 m n ||| (x &&& 0x00C0#16)) (.push m n) ∧
    ∃ t, exec (.push m n) s = .next t ∧ t.reg SP = s2.reg SP ∧
      Frame [SP] ((if upsel m then [(s1.reg SP).toNat] else []) ++ (if lowsel m then [(s2.reg SP).toNat] else [])) s t ∧
      (upsel m = true → t.mem.readWord (s1.reg SP).toNat =
        merge16 (s.mem.readWord (s1.reg SP).toNat) (hi16 (s.reg n)) (maskHigh m)) ∧
      (lowsel m = true → t.mem.readWord (s2.reg SP).toNat =
        merge16 (s.mem.readWord (s2.reg SP).toNat) (lo16 (s.reg n)) (maskLow m))

/-- R204: `pop` reads one word per selected half, the lower half first, post-increments SP once per half, and writes the
merged value last, so that popping SP leaves the popped value in it. Memory is unchanged (decisions D16, D17, D18, log 24). -/
def Obligations.PopCompletes : Prop :=
  ∀ (m : Nibble) (n : RegIndex) (x : Word) (s : State), s.Masked →
    let s1 := if lowsel m then s.incr SP 1#32 else s
    let s2 := if upsel m then s1.incr SP 1#32 else s1
    OneWord (ruleWord 0x0030#16 m n ||| (x &&& 0x00C0#16)) (.pop m n) ∧
    ∃ t, exec (.pop m n) s = .next t ∧
      t.reg n = ruleMerge (s.reg n)
        (cat (s.mem.readWord (s1.reg SP).toNat) (s.mem.readWord (s.reg SP).toNat)) m &&& regmask s.params n ∧
      (n ≠ SP → t.reg SP = s2.reg SP) ∧ Frame [n, SP] [] s t

/-- R204: "Pop with nibble `m` undoes Push with the same `m`": every register is as before, for a register other than SP
(decisions D16, D17, D18, log 24). -/
def Obligations.PushThenPopRestores : Prop :=
  ∀ (m : Nibble) (n : RegIndex) (s : State), s.Masked → n ≠ SP →
    ∃ t u, exec (.push m n) s = .next t ∧ exec (.pop m n) t = .next u ∧ ∀ i, u.reg i = s.reg i

/-- R201, R202: what `store` put under a nibble, `load` with the same nibble and offset gives back, whatever VR held in
between; the bytes outside the nibble keep what VR held (decision D16, log 24). -/
def Obligations.StoreThenLoadRestores : Prop :=
  ∀ (m : Nibble) (off : BitVec 4) (v : Value) (s : State),
    (lowsel m = true → (effAddr off s).toNat < s.params.capacity) →
    (upsel m = true → (effAddr off s + 1#32).toNat < s.params.capacity) →
    ∃ t u, exec (.store m off) s = .next t ∧ exec (.load m off) (t.setReg VR v) = .next u ∧
      u.reg VR = ruleMerge v (s.reg VR) m

/-! ### Move, Set, Swap -/

/-- R216: `move`: the source restricted to the expanded nibble replaces the whole destination (the spec's decision D15). -/
def Obligations.MoveResult : Prop :=
  ∀ (m : Nibble) (d src : RegIndex) (s : State),
    OneWord (ruleWord (0x0006#16 ||| (m.setWidth 16 <<< 4)) d src) (.move m d src) ∧
    ∃ t, exec (.move m d src) s = .next t ∧ RegWritten d (s.reg src &&& expand m) s t

/-- R217: `set`: the immediate replaces the whole destination (the spec's decision D15); bits 15:12 of the word are ignored. -/
def Obligations.SetResult : Prop :=
  ∀ (m : Nibble) (d : RegIndex) (v : Value) (x : Word) (s : State),
    ImmWords (ruleWord (0x0007#16 ||| (m.setWidth 16 <<< 4)) d 0#4 ||| (x &&& 0xF000#16)) m (.set m d) ∧
    ∃ t, exec (.set m d v) s = .next t ∧ RegWritten d v s t

/-- R218: `swap`: each register takes the other's value through its own mask; nothing when they are one register. Bits 7:4
of the word are ignored. -/
def Obligations.SwapResult : Prop :=
  ∀ (d src : RegIndex) (x : Word) (s : State),
    OneWord (ruleWord 0x0008#16 d src ||| (x &&& 0x00F0#16)) (.swap d src) ∧
    ∃ t, exec (.swap d src) s = .next t ∧
      (if d = src then NothingChanged s t
       else t.reg d = s.reg src &&& regmask s.params d ∧ t.reg src = s.reg d &&& regmask s.params src ∧
         Frame [d, src] [] s t)

/-! ### Misc -/

/-- R225: `return` pops a full address off the call stack into IP, lower half first (the spec's decision D17), and moves CSP
by two; bits 15:8 of the word are ignored. -/
def Obligations.ReturnResult : Prop :=
  ∀ (x : Word) (s : State), s.Masked →
    let s1 := s.incr CSP 1#32
    OneWord (0x0009#16 ||| (x &&& 0xFF00#16)) .ret ∧
    ∃ t, exec .ret s = .next t ∧
      t.reg IP = cat (s.mem.readWord (s1.reg CSP).toNat) (s.mem.readWord (s.reg CSP).toNat) &&& addrMask s.params ∧
      t.reg CSP = (s1.incr CSP 1#32).reg CSP ∧ Frame [IP, CSP] [] s t

/-- R226: `terminate` clears `keepExecuting` and nothing else; `fault` is not touched; bits 15:8 of the word are ignored. -/
def Obligations.TerminateHalts : Prop :=
  ∀ (x : Word) (s : State),
    OneWord (0x0019#16 ||| (x &&& 0xFF00#16)) .terminate ∧
    ∃ t, exec .terminate s = .next t ∧ Frame [] [] { s with keepExecuting := false } t

/-- R227, R279: `getc` with an input byte takes it from the stream and writes it, zero-extended, to the register (the spec's
decision D22; the stream is a list of the model's, log 3). -/
def Obligations.GetcReadsByte : Prop :=
  ∀ (d : RegIndex) (x : Word) (b : Byte) (rest : List Byte) (s : State), s.input = b :: rest →
    OneWord (ruleWord 0x0029#16 d 0#4 ||| (x &&& 0xF000#16)) (.getc d) ∧
    ∃ t, exec (.getc d) s = .next t ∧ RegWritten d (b.setWidth 32) { s with input := rest } t

/-- R227, U5: `getc` with no input byte never completes: the model is stuck by its own name (log 4). -/
def Obligations.GetcStuckWithoutInput : Prop :=
  ∀ (d : RegIndex) (s : State), s.input = [] → exec (.getc d) s = .fault .inputExhausted

/-- R228, R279: `putc` appends the low eight bits of the register to the output and changes nothing else (the spec's decision
D22; an output that always accepts is the model's, log 5). -/
def Obligations.PutcWritesByte : Prop :=
  ∀ (d : RegIndex) (x : Word) (s : State),
    OneWord (ruleWord 0x0039#16 d 0#4 ||| (x &&& 0xF000#16)) (.putc d) ∧
    ∃ t, exec (.putc d) s = .next t ∧
      NothingChanged { s with output := s.output ++ [BitVec.ofNat 8 ((s.reg d).toNat % 256)] } t

/-! ### The host -/

/-- R274: the four accessors: in range they read and write one word, out of range they report IllegalAddress and leave the
core as it is; a register index is reduced modulo 16 and a register write is masked (the spec's decision D27, log 16). -/
def Obligations.HostAccessorsObeyBounds : Prop :=
  ∀ (a : Value) (w : Word) (i : Nat) (v : Value) (s : State),
    (a.toNat < s.params.capacity →
      hostReadMemory a s = .ok (s.mem.readWord a.toNat) ∧
      ∃ t, hostWriteMemory a w s = .ok t ∧ t.mem.readWord a.toNat = w ∧ Frame [] [a.toNat] s t) ∧
    (s.params.capacity ≤ a.toNat →
      hostReadMemory a s = .error { cause := .illegalAddress, info := a } ∧
      hostWriteMemory a w s = .error { cause := .illegalAddress, info := a }) ∧
    hostGetRegister i s = s.reg (BitVec.ofNat 4 i) ∧
    RegWritten (BitVec.ofNat 4 i) v s (hostSetRegister i v s)

/-- R275: an image of the right length installs, each register masked, and dumps the same cells again; `flag`,
`keepExecuting` and `fault` stay; an image of another length is refused. The length is the spec's decision D28 (log 16). -/
def Obligations.ImageInstallThenDump : Prop :=
  ∀ (img : List Byte) (s : State),
    (img.length ≠ 64 + 2 * s.params.capacity → installImage img s = none) ∧
    (img.length = 64 + 2 * s.params.capacity →
      ∃ t, installImage img s = some t ∧ (dumpImage t).drop 64 = img.drop 64 ∧
        (∀ i, i < 16 → hostGetRegister i t = imageRegister img i &&& regmask s.params (BitVec.ofNat 4 i)) ∧
        t.flag = s.flag ∧ t.keepExecuting = s.keepExecuting ∧ t.fault = s.fault)
end

