-- ==== Sys2Proof/Laws/Codec.lean ====
section
/-! SUPPORT. The halves of words and values (R10, R11), bit by bit, and the byte-level reading of the merge. -/

namespace Sys2Proof

/-- R10: a word is its two bytes. -/
@[simp] theorem combine_lowerHalf_upperHalf (w : Word) : combine (lowerHalf w) (upperHalf w) = w := by
  apply BitVec.eq_of_getLsbD_eq
  intro i hi
  simp only [combine, lowerHalf, upperHalf, decodeBits]
  interval_cases i <;> simp

@[simp] theorem lowerHalf_combine (l u : Byte) : lowerHalf (combine l u) = l := by
  apply BitVec.eq_of_getLsbD_eq
  intro i hi
  simp only [combine, lowerHalf, decodeBits]
  interval_cases i <;> simp

@[simp] theorem upperHalf_combine (l u : Byte) : upperHalf (combine l u) = u := by
  apply BitVec.eq_of_getLsbD_eq
  intro i hi
  simp only [combine, upperHalf, decodeBits]
  interval_cases i <;> simp

/-- R10, one level up: a value is its two halves. -/
@[simp] theorem cat_hi16_lo16 (v : Value) : cat (hi16 v) (lo16 v) = v := by
  apply BitVec.eq_of_getLsbD_eq
  intro i hi
  simp only [cat, hi16, lo16, decodeBits]
  interval_cases i <;> simp

@[simp] theorem lo16_cat (h l : Word) : lo16 (cat h l) = l := by
  apply BitVec.eq_of_getLsbD_eq
  intro i hi
  simp only [cat, lo16, decodeBits]
  interval_cases i <;> simp

@[simp] theorem hi16_cat (h l : Word) : hi16 (cat h l) = h := by
  apply BitVec.eq_of_getLsbD_eq
  intro i hi
  simp only [cat, hi16, decodeBits]
  interval_cases i <;> simp

/-- A merge under a whole mask is the source. -/
@[simp] theorem merge16_full (dst src : Word) : merge16 dst src 0xFFFF#16 = src := by
  have h : ~~~(0xFFFF#16) = 0#16 := by decide
  have h1 : (0xFFFF#16) = BitVec.allOnes 16 := by decide
  rw [merge16, h, h1, BitVec.and_zero, BitVec.zero_or, BitVec.and_allOnes]

/-- A merge under an empty mask is the destination. -/
@[simp] theorem merge16_none (dst src : Word) : merge16 dst src 0#16 = dst := by
  have h : ~~~(0#16) = BitVec.allOnes 16 := by decide
  rw [merge16, h, BitVec.and_zero, BitVec.or_zero, BitVec.and_allOnes]

/-- Merging the same source twice is merging it once, whatever the destination's bytes under the mask. -/
theorem merge16_merge16 (dst src other mh : Word) : merge16 dst (merge16 other src mh) mh = merge16 dst src mh := by
  apply BitVec.eq_of_getLsbD_eq
  intro i hi
  simp only [merge16, BitVec.getLsbD_or, BitVec.getLsbD_and, BitVec.getLsbD_not]
  cases mh.getLsbD i <;> simp

/-- Merging a word into itself changes nothing. -/
@[simp] theorem merge16_self (w mh : Word) : merge16 w w mh = w := by
  apply BitVec.eq_of_getLsbD_eq
  intro i hi
  simp only [merge16, BitVec.getLsbD_or, BitVec.getLsbD_and, BitVec.getLsbD_not]
  cases mh.getLsbD i <;> simp [hi]

end Sys2Proof
end

