-- ==== Sys2Proof/Laws/Encoding.lean ====
section
/-! SUPPORT. What the decoder's fields read from the encoder's first words (spec/30_encoding.md R82 to R92): each field
comes back, whatever the others hold. -/

namespace Sys2Proof

/-! ### Arithmetic, Logical, Compare -/

section Alu
variable (op style : Word) (imm : Bool) (d n : BitVec 4)

@[simp] theorem opField_firstAlu : opField (firstAlu op imm style d n) = op.setWidth 4 := by
  apply BitVec.eq_of_getLsbD_eq
  intro i hi
  simp only [opField, nibbleField, decodeBits, firstAlu, encodeBits]
  interval_cases i <;> simp

@[simp] theorem immBit_firstAlu : immBit (firstAlu op imm style d n) = imm := by
  have : decodeBits (firstAlu op imm style d n) 0x0010#16 4 = if imm then 1#16 else 0#16 := by
    apply BitVec.eq_of_getLsbD_eq
    intro i hi
    simp only [decodeBits, firstAlu, encodeBits]
    cases imm <;> interval_cases i <;> simp
  rw [immBit, flagField, this]
  cases imm <;> decide

@[simp] theorem styleField_firstAlu : styleField (firstAlu op imm style d n) = (style &&& 7#16).setWidth 4 := by
  apply BitVec.eq_of_getLsbD_eq
  intro i hi
  simp only [styleField, nibbleField, decodeBits, firstAlu, encodeBits]
  interval_cases i <;> simp

@[simp] theorem field11to8_firstAlu : field11to8 (firstAlu op imm style d n) = d := by
  apply BitVec.eq_of_getLsbD_eq
  intro i hi
  simp only [field11to8, nibbleField, decodeBits, firstAlu, encodeBits]
  interval_cases i <;> simp

@[simp] theorem field15to12_firstAlu : field15to12 (firstAlu op imm style d n) = n := by
  apply BitVec.eq_of_getLsbD_eq
  intro i hi
  simp only [field15to12, nibbleField, decodeBits, firstAlu, encodeBits]
  interval_cases i <;> simp

/-- The low byte does not depend on the operand fields. -/
theorem firstAlu_and (k : Word) (hk : k &&& 0xFF00#16 = 0#16) :
    firstAlu op imm style d n &&& k = firstAlu op imm style 0#4 0#4 &&& k := by
  have hb : ∀ i, 8 ≤ i → i < 16 → k.getLsbD i = false := by
    intro i h8 h16
    have := congrArg (fun w => BitVec.getLsbD w i) hk
    interval_cases i <;> simpa using this
  apply BitVec.eq_of_getLsbD_eq
  intro i hi
  simp only [firstAlu, encodeBits]
  by_cases h8 : 8 ≤ i
  · simp [hb i h8 hi]
  · interval_cases i <;> simp

end Alu

/-! ### Memory -/

section Memory
variable (type : Word) (m n : BitVec 4)

@[simp] theorem opField_firstMemory : opField (firstMemory type m n) = 0#4 := by
  apply BitVec.eq_of_getLsbD_eq
  intro i hi
  simp only [opField, nibbleField, decodeBits, firstMemory, encodeBits]
  interval_cases i <;> simp

@[simp] theorem typeField_firstMemory : nibbleField (firstMemory type m n) 0x0030#16 4 = (type &&& 3#16).setWidth 4 := by
  apply BitVec.eq_of_getLsbD_eq
  intro i hi
  simp only [nibbleField, decodeBits, firstMemory, encodeBits]
  interval_cases i <;> simp

@[simp] theorem field11to8_firstMemory : field11to8 (firstMemory type m n) = m := by
  apply BitVec.eq_of_getLsbD_eq
  intro i hi
  simp only [field11to8, nibbleField, decodeBits, firstMemory, encodeBits]
  interval_cases i <;> simp

@[simp] theorem field15to12_firstMemory : field15to12 (firstMemory type m n) = n := by
  apply BitVec.eq_of_getLsbD_eq
  intro i hi
  simp only [field15to12, nibbleField, decodeBits, firstMemory, encodeBits]
  interval_cases i <;> simp

/-- The selecting bits do not depend on the operand fields. -/
theorem firstMemory_and : firstMemory type m n &&& 0x003F#16 = firstMemory type 0#4 0#4 &&& 0x003F#16 := by
  apply BitVec.eq_of_getLsbD_eq
  intro i hi
  simp only [firstMemory, encodeBits]
  interval_cases i <;> simp

end Memory

/-! ### Shift -/

section Shift
variable (left : Bool) (d src : RegIndex) (n : BitVec 5)

@[simp] theorem opField_firstShiftReg : opField (firstShiftReg left d src) = 2#4 := by
  apply BitVec.eq_of_getLsbD_eq
  intro i hi
  simp only [opField, nibbleField, decodeBits, firstShiftReg, firstShift, encodeBits]
  cases left <;> interval_cases i <;> simp

@[simp] theorem destField_firstShiftReg : nibbleField (firstShiftReg left d src) 0x0780#16 7 = d := by
  apply BitVec.eq_of_getLsbD_eq
  intro i hi
  simp only [nibbleField, decodeBits, firstShiftReg, firstShift, encodeBits]
  cases left <;> interval_cases i <;> simp

@[simp] theorem srcField_firstShiftReg : nibbleField (firstShiftReg left d src) 0x7800#16 11 = src := by
  apply BitVec.eq_of_getLsbD_eq
  intro i hi
  simp only [nibbleField, decodeBits, firstShiftReg, firstShift, encodeBits]
  cases left <;> interval_cases i <;> simp

/-- The selecting bits do not depend on the operand fields. -/
theorem firstShiftReg_and : firstShiftReg left d src &&& 0x003F#16 = firstShift false left 0#4 &&& 0x003F#16 := by
  apply BitVec.eq_of_getLsbD_eq
  intro i hi
  simp only [firstShiftReg, firstShift, encodeBits]
  cases left <;> interval_cases i <;> simp

@[simp] theorem opField_firstShiftImm : opField (firstShiftImm left d n) = 2#4 := by
  apply BitVec.eq_of_getLsbD_eq
  intro i hi
  simp only [opField, nibbleField, decodeBits, firstShiftImm, firstShift, encodeBits]
  cases left <;> interval_cases i <;> simp

@[simp] theorem destField_firstShiftImm : nibbleField (firstShiftImm left d n) 0x0780#16 7 = d := by
  apply BitVec.eq_of_getLsbD_eq
  intro i hi
  simp only [nibbleField, decodeBits, firstShiftImm, firstShift, encodeBits]
  cases left <;> interval_cases i <;> simp

@[simp] theorem amountField_firstShiftImm : (decodeBits (firstShiftImm left d n) 0xF800#16 11).setWidth 5 = n := by
  apply BitVec.eq_of_getLsbD_eq
  intro i hi
  simp only [decodeBits, firstShiftImm, firstShift, encodeBits]
  cases left <;> interval_cases i <;> simp

/-- The selecting bits do not depend on the operand fields. -/
theorem firstShiftImm_and : firstShiftImm left d n &&& 0x003F#16 = firstShift true left 0#4 &&& 0x003F#16 := by
  apply BitVec.eq_of_getLsbD_eq
  intro i hi
  simp only [firstShiftImm, firstShift, encodeBits]
  cases left <;> interval_cases i <;> simp

@[simp] theorem immBit_firstShiftReg : immBit (firstShiftReg left d src) = false := by
  have : decodeBits (firstShiftReg left d src) 0x0010#16 4 = 0#16 := by
    apply BitVec.eq_of_getLsbD_eq
    intro i hi
    simp only [decodeBits, firstShiftReg, firstShift, encodeBits]
    cases left <;> interval_cases i <;> simp
  rw [immBit, flagField, this]
  decide

@[simp] theorem leftBit_firstShiftReg : flagField (firstShiftReg left d src) 0x0020#16 5 = left := by
  have : decodeBits (firstShiftReg left d src) 0x0020#16 5 = (if left then 1#16 else 0#16) := by
    apply BitVec.eq_of_getLsbD_eq
    intro i hi
    simp only [decodeBits, firstShiftReg, firstShift, encodeBits]
    cases left <;> interval_cases i <;> simp
  rw [flagField, this]
  cases left <;> decide

@[simp] theorem immBit_firstShiftImm : immBit (firstShiftImm left d n) = true := by
  have : decodeBits (firstShiftImm left d n) 0x0010#16 4 = 1#16 := by
    apply BitVec.eq_of_getLsbD_eq
    intro i hi
    simp only [decodeBits, firstShiftImm, firstShift, encodeBits]
    cases left <;> interval_cases i <;> simp
  rw [immBit, flagField, this]
  decide

@[simp] theorem leftBit_firstShiftImm : flagField (firstShiftImm left d n) 0x0020#16 5 = left := by
  have : decodeBits (firstShiftImm left d n) 0x0020#16 5 = (if left then 1#16 else 0#16) := by
    apply BitVec.eq_of_getLsbD_eq
    intro i hi
    simp only [decodeBits, firstShiftImm, firstShift, encodeBits]
    cases left <;> interval_cases i <;> simp
  rw [flagField, this]
  cases left <;> decide

end Shift

/-! ### Branch -/

section Branch
variable (imm call cond : Bool) (t : RegIndex)

@[simp] theorem opField_firstBranch : opField (firstBranch imm call cond t) = 5#4 := by
  apply BitVec.eq_of_getLsbD_eq
  intro i hi
  simp only [opField, nibbleField, decodeBits, firstBranch, encodeBits]
  cases imm <;> cases call <;> cases cond <;> interval_cases i <;> simp

@[simp] theorem field11to8_firstBranch : field11to8 (firstBranch imm call cond t) = t := by
  apply BitVec.eq_of_getLsbD_eq
  intro i hi
  simp only [field11to8, nibbleField, decodeBits, firstBranch, encodeBits]
  cases imm <;> cases call <;> cases cond <;> interval_cases i <;> simp

/-- The selecting bits do not depend on the operand field. -/
theorem firstBranch_and : firstBranch imm call cond t &&& 0x007F#16 = firstBranch imm call cond 0#4 &&& 0x007F#16 := by
  apply BitVec.eq_of_getLsbD_eq
  intro i hi
  simp only [firstBranch, encodeBits]
  cases imm <;> cases call <;> cases cond <;> interval_cases i <;> simp

@[simp] theorem immBit_firstBranch : immBit (firstBranch imm call cond t) = imm := by
  have : decodeBits (firstBranch imm call cond t) 0x0010#16 4 = (if imm then 1#16 else 0#16) := by
    apply BitVec.eq_of_getLsbD_eq
    intro i hi
    simp only [decodeBits, firstBranch, encodeBits]
    cases imm <;> cases call <;> cases cond <;> interval_cases i <;> simp
  rw [immBit, flagField, this]
  cases imm <;> decide

@[simp] theorem callBit_firstBranch : flagField (firstBranch imm call cond t) 0x0020#16 5 = call := by
  have : decodeBits (firstBranch imm call cond t) 0x0020#16 5 = (if call then 1#16 else 0#16) := by
    apply BitVec.eq_of_getLsbD_eq
    intro i hi
    simp only [decodeBits, firstBranch, encodeBits]
    cases imm <;> cases call <;> cases cond <;> interval_cases i <;> simp
  rw [flagField, this]
  cases call <;> decide

@[simp] theorem condBit_firstBranch : flagField (firstBranch imm call cond t) 0x0040#16 6 = cond := by
  have : decodeBits (firstBranch imm call cond t) 0x0040#16 6 = (if cond then 1#16 else 0#16) := by
    apply BitVec.eq_of_getLsbD_eq
    intro i hi
    simp only [decodeBits, firstBranch, encodeBits]
    cases imm <;> cases call <;> cases cond <;> interval_cases i <;> simp
  rw [flagField, this]
  cases cond <;> decide

end Branch

/-! ### Move, Set, Swap, Misc -/

section Nibbles
variable (op : Word) (a b c : BitVec 4)

@[simp] theorem opField_firstNibbles : opField (firstNibbles op a b c) = op.setWidth 4 := by
  apply BitVec.eq_of_getLsbD_eq
  intro i hi
  simp only [opField, nibbleField, decodeBits, firstNibbles, encodeBits]
  interval_cases i <;> simp

@[simp] theorem field7to4_firstNibbles : field7to4 (firstNibbles op a b c) = a := by
  apply BitVec.eq_of_getLsbD_eq
  intro i hi
  simp only [field7to4, nibbleField, decodeBits, firstNibbles, encodeBits]
  interval_cases i <;> simp

@[simp] theorem field11to8_firstNibbles : field11to8 (firstNibbles op a b c) = b := by
  apply BitVec.eq_of_getLsbD_eq
  intro i hi
  simp only [field11to8, nibbleField, decodeBits, firstNibbles, encodeBits]
  interval_cases i <;> simp

@[simp] theorem field15to12_firstNibbles : field15to12 (firstNibbles op a b c) = c := by
  apply BitVec.eq_of_getLsbD_eq
  intro i hi
  simp only [field15to12, nibbleField, decodeBits, firstNibbles, encodeBits]
  interval_cases i <;> simp

/-- The selecting bits do not depend on the operand fields. -/
theorem firstNibbles_and_op : firstNibbles op a b c &&& 0x000F#16 = firstNibbles op 0#4 0#4 0#4 &&& 0x000F#16 := by
  apply BitVec.eq_of_getLsbD_eq
  intro i hi
  simp only [firstNibbles, encodeBits]
  interval_cases i <;> simp

theorem firstNibbles_and_style :
    firstNibbles op a b c &&& 0x00FF#16 = firstNibbles op a 0#4 0#4 &&& 0x00FF#16 := by
  apply BitVec.eq_of_getLsbD_eq
  intro i hi
  simp only [firstNibbles, encodeBits]
  interval_cases i <;> simp

end Nibbles

end Sys2Proof
end

