-- ==== Sys2Proof/Laws/Memory.lean ====
section
/-! SUPPORT. The laws of the memory: read after write, and that every operation keeps the canonical form. -/

namespace Sys2Proof.Machine

/-! ### Reading -/

/-- A byte that no entry lists reads as the unlisted byte. -/
theorem Memory.readByte_of_not_listed (m : Memory) (a : Nat) (h : ∀ c ∈ m, c.1 ≠ a) :
    m.readByte a = Memory.unlisted := by
  induction m with
  | nil => rfl
  | cons c m ih =>
    have hc : c.1 ≠ a := h c (by simp)
    simp only [Memory.readByte, if_neg hc]
    exact ih fun d hd => h d (by simp [hd])

theorem Memory.readByte_insertByte (m : Memory) (a b : Nat) (v : Byte) (h : ∀ c ∈ m, c.1 ≠ a) :
    (m.insertByte a v).readByte b = if a = b then v else m.readByte b := by
  induction m with
  | nil => simp [Memory.insertByte, Memory.readByte]
  | cons c m ih =>
    have hc : c.1 ≠ a := h c (by simp)
    have ih' := ih fun d hd => h d (by simp [hd])
    unfold Memory.insertByte
    by_cases hlt : a < c.1
    · simp [if_pos hlt, Memory.readByte]
    · simp only [if_neg hlt, Memory.readByte, ih']
      by_cases hb : c.1 = b
      · have : a ≠ b := fun e => hc (hb.trans e.symm)
        simp [hb, this]
      · simp [hb]

theorem Memory.readByte_filter (m : Memory) (a b : Nat) :
    Memory.readByte (m.filter fun c => c.1 != a) b = if a = b then Memory.unlisted else m.readByte b := by
  induction m with
  | nil => simp [Memory.readByte]
  | cons c m ih =>
    by_cases hc : c.1 = a
    · simp only [List.filter_cons, hc, bne_self_eq_false, Bool.false_eq_true, if_false, ih, Memory.readByte]
      by_cases hb : a = b <;> simp [hb]
    · have : (c.1 != a) = true := by simpa using hc
      simp only [List.filter_cons, this, if_true, Memory.readByte, ih]
      by_cases hcb : c.1 = b
      · have : a ≠ b := fun e => hc (hcb.trans e.symm)
        simp [hcb, this]
      · simp [hcb]

/-- Read after write, for every memory: the written byte reads as written, every other byte as before. -/
theorem Memory.readByte_writeByte (m : Memory) (a b : Nat) (v : Byte) :
    (m.writeByte a v).readByte b = if a = b then v else m.readByte b := by
  unfold Memory.writeByte
  by_cases hv : v = Memory.unlisted
  · simp [hv, Memory.readByte_filter]
  · simp only [hv, if_false]
    rw [Memory.readByte_insertByte, Memory.readByte_filter]
    · by_cases hb : a = b <;> simp [hb]
    · intro c hc
      simpa using (List.mem_filter.mp hc).2

/-- The bytes of a written word, and every other byte. -/
theorem Memory.readByte_writeWord (m : Memory) (a b : Nat) (w : Word) :
    (m.writeWord a w).readByte b =
      if b = 2 * a then lowerHalf w else if b = 2 * a + 1 then upperHalf w else m.readByte b := by
  simp only [Memory.writeWord, Memory.readByte_writeByte]
  by_cases h1 : b = 2 * a
  · subst h1
    simp
  · by_cases h2 : b = 2 * a + 1
    · simp [h2]
    · simp [h1, h2, Ne.symm h1, Ne.symm h2]

/-- A byte outside the written word is as before. -/
theorem Memory.readByte_writeWord_other (m : Memory) (a b : Nat) (w : Word) (h : b / 2 ≠ a) :
    (m.writeWord a w).readByte b = m.readByte b := by
  rw [Memory.readByte_writeWord, if_neg (by omega), if_neg (by omega)]

/-- R51: a read returns the latest value written to the cell. -/
@[simp] theorem Memory.readWord_writeWord_same (m : Memory) (a : Nat) (w : Word) :
    (m.writeWord a w).readWord a = w := by
  simp [Memory.readWord, Memory.readByte_writeWord]

/-- A write leaves every other cell alone. -/
theorem Memory.readWord_writeWord_other (m : Memory) (a b : Nat) (w : Word) (h : b ≠ a) :
    (m.writeWord a w).readWord b = m.readWord b := by
  simp only [Memory.readWord]
  rw [Memory.readByte_writeWord_other _ _ _ _ (by omega), Memory.readByte_writeWord_other _ _ _ _ (by omega)]

/-- R35: memory with nothing listed is all zero. -/
@[simp] theorem Memory.readWord_nil (a : Nat) : Memory.readWord [] a = 0#16 := by
  show combine Memory.unlisted Memory.unlisted = 0#16
  decide

/-! ### The canonical form -/

theorem Memory.mem_insertByte (m : Memory) (a : Nat) (v : Byte) (c : Host.Cell) :
    c ∈ m.insertByte a v ↔ c = (a, v) ∨ c ∈ m := by
  induction m with
  | nil => simp [Memory.insertByte]
  | cons d m ih =>
    unfold Memory.insertByte
    by_cases hlt : a < d.1
    · simp [if_pos hlt]
    · simp only [if_neg hlt, List.mem_cons, ih]
      tauto

theorem Memory.insertByte_sorted (m : Memory) (a : Nat) (v : Byte) (h : m.Pairwise fun c d => c.1 < d.1)
    (hn : ∀ c ∈ m, c.1 ≠ a) : (m.insertByte a v).Pairwise fun c d => c.1 < d.1 := by
  induction m with
  | nil => simp [Memory.insertByte]
  | cons d m ih =>
    obtain ⟨hd, hm⟩ := List.pairwise_cons.mp h
    unfold Memory.insertByte
    by_cases hlt : a < d.1
    · rw [if_pos hlt]
      refine List.pairwise_cons.mpr ⟨fun c hc => ?_, h⟩
      rcases List.mem_cons.mp hc with rfl | hc
      · exact hlt
      · exact lt_trans hlt (hd c hc)
    · rw [if_neg hlt]
      refine List.pairwise_cons.mpr ⟨fun c hc => ?_, ih hm fun c hc => hn c (by simp [hc])⟩
      rcases (Memory.mem_insertByte m a v c).mp hc with rfl | hc
      · have := hn d (by simp)
        exact lt_of_le_of_ne (not_lt.mp hlt) this
      · exact hd c hc

/-- A byte write keeps the canonical form. -/
theorem Memory.writeByte_wf (m : Memory) (a : Nat) (v : Byte) (h : m.wf) : (m.writeByte a v).wf := by
  have hs : (m.filter fun c => c.1 != a).Pairwise fun c d => c.1 < d.1 := h.1.filter _
  have hz : ∀ c ∈ m.filter (fun c => c.1 != a), c.2 ≠ Memory.unlisted := fun c hc => h.2 c (List.mem_filter.mp hc).1
  unfold Memory.writeByte
  by_cases hv : v = Memory.unlisted
  · simpa [hv] using ⟨hs, hz⟩
  · simp only [hv, if_false]
    refine ⟨Memory.insertByte_sorted _ a v hs fun c hc => by simpa using (List.mem_filter.mp hc).2, fun c hc => ?_⟩
    rcases (Memory.mem_insertByte _ a v c).mp hc with rfl | hc
    · exact hv
    · exact hz c hc

/-- A word write keeps the canonical form. -/
theorem Memory.writeWord_wf (m : Memory) (a : Nat) (w : Word) (h : m.wf) : (m.writeWord a w).wf :=
  Memory.writeByte_wf _ _ _ (Memory.writeByte_wf _ _ _ h)

/-- A byte write lists nothing but what was listed and its own address. -/
theorem Memory.mem_writeByte (m : Memory) (a : Nat) (v : Byte) (c : Host.Cell) (hc : c ∈ m.writeByte a v) :
    c ∈ m ∨ c.1 = a := by
  unfold Memory.writeByte at hc
  by_cases hv : v = Memory.unlisted
  · simp only [hv, if_true] at hc
    exact .inl (List.mem_filter.mp hc).1
  · simp only [hv, if_false] at hc
    rcases (Memory.mem_insertByte _ a v c).mp hc with rfl | hc
    · exact .inr rfl
    · exact .inl (List.mem_filter.mp hc).1

/-- A word write stays inside an address space that holds the word. -/
theorem Memory.writeWord_inRange (m : Memory) (a n : Nat) (w : Word) (ha : a < n) (h : ∀ c ∈ m, c.1 < 2 * n) :
    ∀ c ∈ m.writeWord a w, c.1 < 2 * n := by
  intro c hc
  rcases Memory.mem_writeByte _ _ _ c hc with hc | hc
  · rcases Memory.mem_writeByte _ _ _ c hc with hc | hc
    · exact h c hc
    · omega
  · omega

/-- The reset memory has the canonical form. -/
theorem Memory.reset_wf : State.reset.mem.wf := by decide

/-- In a canonical memory a byte reads as the unlisted byte exactly where no entry lists it. -/
theorem Memory.readByte_eq_of_mem (m : Memory) (h : m.wf) (c : Host.Cell) (hc : c ∈ m) : m.readByte c.1 = c.2 := by
  induction m with
  | nil => simp at hc
  | cons d m ih =>
    obtain ⟨hd, hm⟩ := List.pairwise_cons.mp h.1
    rcases List.mem_cons.mp hc with rfl | hc
    · simp [Memory.readByte]
    · have : d.1 ≠ c.1 := ne_of_lt (hd c hc)
      simp only [Memory.readByte, if_neg this]
      exact ih ⟨hm, fun e he => h.2 e (by simp [he])⟩ hc

end Sys2Proof.Machine
end

