-- ==== Sys2Proof/Laws/State.lean ====
section
/-! SUPPORT. One lemma per field per update of State, true by rfl, and what a register holds after each update. -/

namespace Sys2Proof.Machine

variable (s : State)

@[simp] theorem State.setReg_mem (i : RegIndex) (v : Value) : (s.setReg i v).mem = s.mem := rfl
@[simp] theorem State.setReg_flag (i : RegIndex) (v : Value) : (s.setReg i v).flag = s.flag := rfl
@[simp] theorem State.setReg_keepExecuting (i : RegIndex) (v : Value) : (s.setReg i v).keepExecuting = s.keepExecuting := rfl
@[simp] theorem State.setReg_fault (i : RegIndex) (v : Value) : (s.setReg i v).fault = s.fault := rfl
@[simp] theorem State.setReg_params (i : RegIndex) (v : Value) : (s.setReg i v).params = s.params := rfl
@[simp] theorem State.setReg_input (i : RegIndex) (v : Value) : (s.setReg i v).input = s.input := rfl
@[simp] theorem State.setReg_output (i : RegIndex) (v : Value) : (s.setReg i v).output = s.output := rfl

@[simp] theorem State.incr_mem (i : RegIndex) (n : Value) : (s.incr i n).mem = s.mem := rfl
@[simp] theorem State.incr_flag (i : RegIndex) (n : Value) : (s.incr i n).flag = s.flag := rfl
@[simp] theorem State.incr_keepExecuting (i : RegIndex) (n : Value) : (s.incr i n).keepExecuting = s.keepExecuting := rfl
@[simp] theorem State.incr_fault (i : RegIndex) (n : Value) : (s.incr i n).fault = s.fault := rfl
@[simp] theorem State.incr_params (i : RegIndex) (n : Value) : (s.incr i n).params = s.params := rfl
@[simp] theorem State.incr_input (i : RegIndex) (n : Value) : (s.incr i n).input = s.input := rfl
@[simp] theorem State.incr_output (i : RegIndex) (n : Value) : (s.incr i n).output = s.output := rfl

@[simp] theorem State.decr_mem (i : RegIndex) (n : Value) : (s.decr i n).mem = s.mem := rfl
@[simp] theorem State.decr_flag (i : RegIndex) (n : Value) : (s.decr i n).flag = s.flag := rfl
@[simp] theorem State.decr_keepExecuting (i : RegIndex) (n : Value) : (s.decr i n).keepExecuting = s.keepExecuting := rfl
@[simp] theorem State.decr_fault (i : RegIndex) (n : Value) : (s.decr i n).fault = s.fault := rfl
@[simp] theorem State.decr_params (i : RegIndex) (n : Value) : (s.decr i n).params = s.params := rfl
@[simp] theorem State.decr_input (i : RegIndex) (n : Value) : (s.decr i n).input = s.input := rfl
@[simp] theorem State.decr_output (i : RegIndex) (n : Value) : (s.decr i n).output = s.output := rfl

@[simp] theorem State.setMem_regs (m : Memory) : (s.setMem m).regs = s.regs := rfl
@[simp] theorem State.setMem_mem (m : Memory) : (s.setMem m).mem = m := rfl
@[simp] theorem State.setMem_flag (m : Memory) : (s.setMem m).flag = s.flag := rfl
@[simp] theorem State.setMem_keepExecuting (m : Memory) : (s.setMem m).keepExecuting = s.keepExecuting := rfl
@[simp] theorem State.setMem_fault (m : Memory) : (s.setMem m).fault = s.fault := rfl
@[simp] theorem State.setMem_params (m : Memory) : (s.setMem m).params = s.params := rfl
@[simp] theorem State.setMem_input (m : Memory) : (s.setMem m).input = s.input := rfl
@[simp] theorem State.setMem_output (m : Memory) : (s.setMem m).output = s.output := rfl
@[simp] theorem State.setMem_reg (m : Memory) (j : RegIndex) : (s.setMem m).reg j = s.reg j := rfl

@[simp] theorem State.setFlag_regs (b : Bool) : (s.setFlag b).regs = s.regs := rfl
@[simp] theorem State.setFlag_mem (b : Bool) : (s.setFlag b).mem = s.mem := rfl
@[simp] theorem State.setFlag_flag (b : Bool) : (s.setFlag b).flag = b := rfl
@[simp] theorem State.setFlag_keepExecuting (b : Bool) : (s.setFlag b).keepExecuting = s.keepExecuting := rfl
@[simp] theorem State.setFlag_fault (b : Bool) : (s.setFlag b).fault = s.fault := rfl
@[simp] theorem State.setFlag_params (b : Bool) : (s.setFlag b).params = s.params := rfl
@[simp] theorem State.setFlag_input (b : Bool) : (s.setFlag b).input = s.input := rfl
@[simp] theorem State.setFlag_output (b : Bool) : (s.setFlag b).output = s.output := rfl
@[simp] theorem State.setFlag_reg (b : Bool) (j : RegIndex) : (s.setFlag b).reg j = s.reg j := rfl

@[simp] theorem State.stop_regs : (s.stop).regs = s.regs := rfl
@[simp] theorem State.stop_mem : (s.stop).mem = s.mem := rfl
@[simp] theorem State.stop_flag : (s.stop).flag = s.flag := rfl
@[simp] theorem State.stop_keepExecuting : (s.stop).keepExecuting = false := rfl
@[simp] theorem State.stop_fault : (s.stop).fault = s.fault := rfl
@[simp] theorem State.stop_params : (s.stop).params = s.params := rfl
@[simp] theorem State.stop_input : (s.stop).input = s.input := rfl
@[simp] theorem State.stop_output : (s.stop).output = s.output := rfl
@[simp] theorem State.stop_reg (j : RegIndex) : (s.stop).reg j = s.reg j := rfl

@[simp] theorem State.takeFault_regs (f : FaultRecord) : (s.takeFault f).regs = s.regs := rfl
@[simp] theorem State.takeFault_mem (f : FaultRecord) : (s.takeFault f).mem = s.mem := rfl
@[simp] theorem State.takeFault_flag (f : FaultRecord) : (s.takeFault f).flag = s.flag := rfl
@[simp] theorem State.takeFault_keepExecuting (f : FaultRecord) : (s.takeFault f).keepExecuting = false := rfl
@[simp] theorem State.takeFault_fault (f : FaultRecord) : (s.takeFault f).fault = some f := rfl
@[simp] theorem State.takeFault_params (f : FaultRecord) : (s.takeFault f).params = s.params := rfl
@[simp] theorem State.takeFault_input (f : FaultRecord) : (s.takeFault f).input = s.input := rfl
@[simp] theorem State.takeFault_output (f : FaultRecord) : (s.takeFault f).output = s.output := rfl
@[simp] theorem State.takeFault_reg (f : FaultRecord) (j : RegIndex) : (s.takeFault f).reg j = s.reg j := rfl

@[simp] theorem charOut_regs (b : Byte) : (charOut b s).regs = s.regs := rfl
@[simp] theorem charOut_mem (b : Byte) : (charOut b s).mem = s.mem := rfl
@[simp] theorem charOut_flag (b : Byte) : (charOut b s).flag = s.flag := rfl
@[simp] theorem charOut_keepExecuting (b : Byte) : (charOut b s).keepExecuting = s.keepExecuting := rfl
@[simp] theorem charOut_fault (b : Byte) : (charOut b s).fault = s.fault := rfl
@[simp] theorem charOut_params (b : Byte) : (charOut b s).params = s.params := rfl
@[simp] theorem charOut_input (b : Byte) : (charOut b s).input = s.input := rfl
@[simp] theorem charOut_output (b : Byte) : (charOut b s).output = s.output ++ [b] := rfl
@[simp] theorem charOut_reg (b : Byte) (j : RegIndex) : (charOut b s).reg j = s.reg j := rfl

/-! ### Register writes -/

/-- R27: the written register holds the value under its mask. -/
@[simp] theorem State.setReg_reg_same (i : RegIndex) (v : Value) :
    (s.setReg i v).reg i = v &&& regmask s.params i := by
  simp [State.setReg, State.reg]

/-- R27: every other register is unchanged. -/
theorem State.setReg_reg_other (i j : RegIndex) (v : Value) (h : j ≠ i) : (s.setReg i v).reg j = s.reg j := by
  have hne : i.toNat ≠ j.toNat := fun e => h (BitVec.eq_of_toNat_eq e.symm)
  simp [State.setReg, State.reg, Vector.getElem_set_ne _ _ hne]

/-- Both at once, for `simp`. -/
theorem State.setReg_reg (i j : RegIndex) (v : Value) :
    (s.setReg i v).reg j = if j = i then v &&& regmask s.params i else s.reg j := by
  by_cases h : j = i
  · subst h; simp
  · simp [h, State.setReg_reg_other]

/-- R28: the incremented register, masked. -/
@[simp] theorem State.incr_reg_same (i : RegIndex) (n : Value) :
    (s.incr i n).reg i = (s.reg i + n) &&& regmask s.params i := State.setReg_reg_same s i _

theorem State.incr_reg_other (i j : RegIndex) (n : Value) (h : j ≠ i) : (s.incr i n).reg j = s.reg j :=
  State.setReg_reg_other s i j _ h

/-- R28: the decremented register, masked. -/
@[simp] theorem State.decr_reg_same (i : RegIndex) (n : Value) :
    (s.decr i n).reg i = (s.reg i - n) &&& regmask s.params i := State.setReg_reg_same s i _

theorem State.decr_reg_other (i j : RegIndex) (n : Value) (h : j ≠ i) : (s.decr i n).reg j = s.reg j :=
  State.setReg_reg_other s i j _ h

/-- Two states with the same sixteen registers have the same register file. -/
theorem State.regs_ext {s t : State} (h : ∀ i, t.reg i = s.reg i) : t.regs = s.regs := by
  apply Vector.ext
  intro i hi
  have := h (BitVec.ofNat 4 i)
  simpa [State.reg, Nat.mod_eq_of_lt hi] using this

end Sys2Proof.Machine
end

