-- ==== Sys2Proof/Laws/Ops.lean ====
section
/-! SUPPORT. One lemma per shared operation that says once what it can do; proofs cite these instead of unfolding. -/

namespace Sys2Proof.Machine

/-! ### Addresses and masks -/

theorem capacity_pos (p : Params) : 0 < p.capacity := Nat.two_pow_pos _

theorem two_le_capacity (p : Params) : 2 ≤ p.capacity := by
  have : 2 ^ 1 ≤ 2 ^ (p.capExp.val + 1) := Nat.pow_le_pow_right (by decide) (by omega)
  simpa [Params.capacity] using this

theorem capacity_le (p : Params) : p.capacity ≤ 2 ^ 32 :=
  Nat.pow_le_pow_right (by decide) (by omega)

/-- R25: masking with CAPACITY - 1 is reduction modulo CAPACITY. -/
theorem toNat_and_addrMask (p : Params) (v : Value) : (v &&& addrMask p).toNat = v.toNat % p.capacity := by
  have hc := capacity_le p
  have hp := capacity_pos p
  rw [addrMask, BitVec.toNat_and, BitVec.toNat_ofNat, Nat.mod_eq_of_lt (by omega)]
  exact Nat.and_two_pow_sub_one_eq_mod _ _

/-- R30: a masked address is inside memory. -/
theorem and_addrMask_lt (p : Params) (v : Value) : (v &&& addrMask p).toNat < p.capacity := by
  rw [toNat_and_addrMask]
  exact Nat.mod_lt _ (capacity_pos p)

theorem regmask_of_le (p : Params) (i : RegIndex) (h : 12#4 ≤ i) : regmask p i = addrMask p := if_pos h

theorem regmask_of_lt (p : Params) (i : RegIndex) (h : ¬ 12#4 ≤ i) : regmask p i = 0xFFFFFFFF#32 := if_neg h

@[simp] theorem regmask_IP (p : Params) : regmask p IP = addrMask p := rfl
@[simp] theorem regmask_SP (p : Params) : regmask p SP = addrMask p := rfl
@[simp] theorem regmask_CSP (p : Params) : regmask p CSP = addrMask p := rfl
@[simp] theorem regmask_AR (p : Params) : regmask p AR = addrMask p := rfl
@[simp] theorem regmask_VR (p : Params) : regmask p VR = 0xFFFFFFFF#32 := rfl

/-- R25: an unmasked register keeps all 32 bits. -/
@[simp] theorem and_allOnes32 (v : Value) : v &&& 0xFFFFFFFF#32 = v := by
  have : (0xFFFFFFFF#32) = BitVec.allOnes 32 := by decide
  rw [this, BitVec.and_allOnes]

/-- Masking twice is masking once. -/
@[simp] theorem and_regmask_idem (p : Params) (i : RegIndex) (v : Value) :
    v &&& regmask p i &&& regmask p i = v &&& regmask p i := by
  rw [BitVec.and_assoc, BitVec.and_self]

/-- An address register that was just written holds an address inside memory (R60). -/
theorem State.setReg_reg_lt (s : State) (i : RegIndex) (v : Value) (h : 12#4 ≤ i) :
    ((s.setReg i v).reg i).toNat < s.params.capacity := by
  rw [State.setReg_reg_same, regmask_of_le _ _ h]
  exact and_addrMask_lt _ _

theorem State.decr_reg_lt (s : State) (i : RegIndex) (n : Value) (h : 12#4 ≤ i) :
    ((s.decr i n).reg i).toNat < s.params.capacity := State.setReg_reg_lt s i _ h

theorem State.incr_reg_lt (s : State) (i : RegIndex) (n : Value) (h : 12#4 ≤ i) :
    ((s.incr i n).reg i).toNat < s.params.capacity := State.setReg_reg_lt s i _ h

/-! ### Attempts -/

@[simp] theorem Attempt.done_andThen {α β : Type} (a : α) (s : State) (k : α → State → Attempt β) :
    (Attempt.done a s).andThen k = k a s := rfl
@[simp] theorem Attempt.raised_andThen {α β : Type} (f : FaultRecord) (s : State) (k : α → State → Attempt β) :
    (Attempt.raised f s).andThen k = .raised f s := rfl
@[simp] theorem Attempt.finish_done (a : Unit) (s : State) : (Attempt.done a s).finish = .next s := rfl
@[simp] theorem Attempt.finish_raised (f : FaultRecord) (s : State) :
    (Attempt.raised f s).finish = .next (s.takeFault f) := rfl

/-- An attempt ends with a value or with a fault taken; either way there is a next state. -/
theorem Attempt.finish_cases {x : Attempt Unit} {t : State} (h : x.finish = .next t) :
    (x = .done () t) ∨ ∃ f s, x = .raised f s ∧ t = s.takeFault f := by
  cases x with
  | done a s => left; simpa using h
  | raised f s => right; exact ⟨f, s, rfl, by simpa using h.symm⟩

/-- What follows an attempt is reached only through its value. -/
theorem Attempt.andThen_done {α β : Type} {x : Attempt α} {k : α → State → Attempt β} {b : β} {t : State}
    (h : x.andThen k = .done b t) : ∃ a s, x = .done a s ∧ k a s = .done b t := by
  cases x with
  | done a s => exact ⟨a, s, rfl, h⟩
  | raised f s => simp at h

/-! ### Memory access (R51, R54) -/

theorem memRead_of_lt {a : Value} {s : State} (h : a.toNat < s.params.capacity) :
    memRead a s = .done (s.mem.readWord a.toNat) s := by
  simp [memRead, Nat.not_le.mpr h]

theorem memRead_of_le {a : Value} {s : State} (h : s.params.capacity ≤ a.toNat) :
    memRead a s = .raised (illegalAddress a) s := by
  simp [memRead, h]

theorem memWrite_of_lt {a : Value} {v : Word} {s : State} (h : a.toNat < s.params.capacity) :
    memWrite a v s = .done () (s.setMem (s.mem.writeWord a.toNat v)) := by
  simp [memWrite, Nat.not_le.mpr h]

theorem memWrite_of_le {a : Value} {v : Word} {s : State} (h : s.params.capacity ≤ a.toNat) :
    memWrite a v s = .raised (illegalAddress a) s := by
  simp [memWrite, h]

/-- R54: a half transfer to memory is one merge, whichever path was taken. -/
theorem mergeWrite_of_lt {a : Value} {src mh : Word} {s : State} (h : a.toNat < s.params.capacity) :
    mergeWrite a src mh s =
      .done () (s.setMem (s.mem.writeWord a.toNat (merge16 (s.mem.readWord a.toNat) src mh))) := by
  unfold mergeWrite
  split
  · next hm => simp [hm, memWrite_of_lt h]
  · simp [memRead_of_lt h, memWrite_of_lt h]

theorem mergeWrite_of_le {a : Value} {src mh : Word} {s : State} (h : s.params.capacity ≤ a.toNat) :
    mergeWrite a src mh s = .raised (illegalAddress a) s := by
  unfold mergeWrite
  split
  · exact memWrite_of_le h
  · simp [memRead_of_le h]

/-- R52: with IP inside memory the fetch primitive reads the word there and advances IP. -/
theorem nextWord_of_lt {s : State} (h : (s.reg IP).toNat < s.params.capacity) :
    nextWord s = .done (s.mem.readWord (s.reg IP).toNat) (s.incr IP 1#32) := by
  simp [nextWord, memRead_of_lt h]

/-! ### The stacks (R203, R204, R185, R225) -/

/-- Pushing a word on a masked stack pointer always succeeds. -/
theorem pushWord_eq (p : RegIndex) (w : Word) (s : State) (hp : 12#4 ≤ p) :
    pushWord p w s =
      .done () ((s.decr p 1#32).setMem (s.mem.writeWord ((s.decr p 1#32).reg p).toNat w)) :=
  memWrite_of_lt (State.decr_reg_lt s p _ hp)

/-- Pushing a half on a masked stack pointer always succeeds. -/
theorem pushHalf_eq (p : RegIndex) (src mh : Word) (s : State) (hp : 12#4 ≤ p) :
    pushHalf p src mh s =
      .done () ((s.decr p 1#32).setMem
        (s.mem.writeWord ((s.decr p 1#32).reg p).toNat
          (merge16 (s.mem.readWord ((s.decr p 1#32).reg p).toNat) src mh))) :=
  mergeWrite_of_lt (State.decr_reg_lt s p _ hp)

/-- Popping a word from a stack pointer inside memory succeeds and leaves the memory as it is. -/
theorem popWord_eq (p : RegIndex) (s : State) (h : (s.reg p).toNat < s.params.capacity) :
    popWord p s = .done (s.mem.readWord (s.reg p).toNat) (s.incr p 1#32) := by
  simp [popWord, memRead_of_lt h]

/-- R185: `pushCall` always succeeds; the two words go below the old CSP, the upper half first. -/
theorem pushCall_eq (a : Value) (s : State) :
    pushCall a s =
      .done () (((s.decr CSP 1#32).decr CSP 1#32).setMem
        ((s.mem.writeWord ((s.decr CSP 1#32).reg CSP).toNat (hi16 a)).writeWord
          (((s.decr CSP 1#32).decr CSP 1#32).reg CSP).toNat (lo16 a))) := by
  rw [pushCall, pushWord_eq _ _ _ (by decide), Attempt.done_andThen, pushWord_eq _ _ _ (by decide)]
  rfl

/-- R225: with CSP inside memory `popCall` gives the value whose halves lie at CSP and after it. -/
theorem popCall_eq (s : State) (h : (s.reg CSP).toNat < s.params.capacity) :
    popCall s =
      .done (cat (s.mem.readWord ((s.incr CSP 1#32).reg CSP).toNat) (s.mem.readWord (s.reg CSP).toNat))
        ((s.incr CSP 1#32).incr CSP 1#32) := by
  rw [popCall, popWord_eq _ _ h, Attempt.done_andThen, popWord_eq _ _ (State.incr_reg_lt s _ _ (by decide))]
  rfl

/-- R185: a taken call always completes. -/
theorem callTo_eq (t : Value) (s : State) :
    callTo t s =
      .next ((((s.decr CSP 1#32).decr CSP 1#32).setMem
        ((s.mem.writeWord ((s.decr CSP 1#32).reg CSP).toNat (hi16 (s.reg IP))).writeWord
          (((s.decr CSP 1#32).decr CSP 1#32).reg CSP).toNat (lo16 (s.reg IP)))).setReg IP t) := by
  rw [callTo, pushCall_eq, Attempt.done_andThen, Attempt.finish_done]

/-! ### The ways a result is delivered -/

theorem combineInto_next {f : Value → Value → Value} {d : RegIndex} {b : Value} {s t : State}
    (h : combineInto f d b s = .next t) : t = s.setReg d (f (s.reg d) b) := by
  simpa [combineInto] using h.symm

theorem selectIntoVR_next {f : Reading → Value → Value → Value} {d : RegIndex} {b : Value} {s t : State}
    (h : selectIntoVR f d b s = .next t) : t = s.setReg VR (f s.params.arithInterp (s.reg d) b) := by
  simpa [selectIntoVR] using h.symm

theorem compareWith_next {f : Reading → Value → Value → Bool} {d : RegIndex} {b : Value} {s t : State}
    (h : compareWith f d b s = .next t) : t = s.setFlag (f s.params.compareInterp (s.reg d) b) := by
  simpa [compareWith] using h.symm

/-- Div and Rem go on only by taking DivideByZero or by writing the destination. -/
theorem divideInto_next {f : Reading → Value → Value → Value} {d : RegIndex} {b : Value} {s t : State}
    (h : divideInto f d b s = .next t) :
    (b = 0#32 ∧ t = s.takeFault divideByZero) ∨
    (b ≠ 0#32 ∧ divideOverflows s.params.arithInterp (s.reg d) b = false ∧
      t = s.setReg d (f s.params.arithInterp (s.reg d) b)) := by
  unfold divideInto at h
  split at h
  · next hb => exact .inl ⟨hb, by simpa using h.symm⟩
  · next hb =>
    split at h
    · simp at h
    · next ho => exact .inr ⟨hb, by simpa using ho, by simpa using h.symm⟩

/-- `charIn` takes the first byte of the input. -/
theorem charIn_some {s t : State} {b : Byte} (h : charIn s = some (b, t)) :
    ∃ rest, s.input = b :: rest ∧ t = { s with input := rest } := by
  unfold charIn at h
  split at h
  · simp at h
  · next c rest hc =>
    simp only [Option.some.injEq, Prod.mk.injEq] at h
    exact ⟨rest, by rw [hc, h.1], h.2.symm⟩

end Sys2Proof.Machine
end

