-- ==== Sys2Proof/Laws/Invariant.lean ====
section
/-! SUPPORT. Each shared operation keeps each part of the invariant; a proof that a step keeps it assembles these. -/

namespace Sys2Proof.Machine

variable {s : State}

/-- A masked register of the address-holding four is inside memory (R30, R60). -/
theorem State.Masked.reg_lt (h : s.Masked) (i : RegIndex) (hi : 12#4 ≤ i) : (s.reg i).toNat < s.params.capacity := by
  rw [← h i, regmask_of_le _ _ hi]
  exact and_addrMask_lt _ _

/-- R27: a register write keeps every register masked. -/
theorem State.Masked.setReg (h : s.Masked) (i : RegIndex) (v : Value) : (s.setReg i v).Masked := by
  intro j
  rw [State.setReg_reg]
  split
  · next e => subst e; simp
  · exact h j

theorem State.Inv.setReg (h : s.Inv) (i : RegIndex) (v : Value) : (s.setReg i v).Inv :=
  ⟨h.masked.setReg i v, h.memWf, h.memInRange, h.runningClean⟩

theorem State.Inv.incr (h : s.Inv) (i : RegIndex) (n : Value) : (s.incr i n).Inv := h.setReg i _

theorem State.Inv.decr (h : s.Inv) (i : RegIndex) (n : Value) : (s.decr i n).Inv := h.setReg i _

theorem State.Inv.setFlag (h : s.Inv) (b : Bool) : (s.setFlag b).Inv :=
  ⟨h.masked, h.memWf, h.memInRange, h.runningClean⟩

theorem State.Inv.charOut (h : s.Inv) (b : Byte) : (charOut b s).Inv :=
  ⟨h.masked, h.memWf, h.memInRange, h.runningClean⟩

theorem State.Inv.withInput (h : s.Inv) (l : List Byte) : State.Inv { s with input := l } :=
  ⟨h.masked, h.memWf, h.memInRange, h.runningClean⟩

theorem State.Inv.stop (h : s.Inv) : s.stop.Inv :=
  ⟨h.masked, h.memWf, h.memInRange, by simp⟩

/-- R246: a taken fault halts the core, so nothing is asked of a Running one. -/
theorem State.Inv.takeFault (h : s.Inv) (f : FaultRecord) : (s.takeFault f).Inv :=
  ⟨h.masked, h.memWf, h.memInRange, by simp⟩

/-- A word write inside the address space keeps the invariant. -/
theorem State.Inv.writeWord (h : s.Inv) (a : Nat) (w : Word) (ha : a < s.params.capacity) :
    (s.setMem (s.mem.writeWord a w)).Inv :=
  ⟨h.masked, Memory.writeWord_wf _ _ _ h.memWf, Memory.writeWord_inRange _ _ _ _ ha h.memInRange, h.runningClean⟩

/-- What an attempt does keeps the invariant, whether it goes on or raises. -/
def Attempt.Keeps {α : Type} : Attempt α → Prop
  | .done _ s => s.Inv
  | .raised _ s => s.Inv

theorem Attempt.Keeps.andThen {α β : Type} {x : Attempt α} {k : α → State → Attempt β} (hx : x.Keeps)
    (hk : ∀ a s, s.Inv → (k a s).Keeps) : (x.andThen k).Keeps := by
  cases x with
  | done a s => exact hk a s hx
  | raised f s => exact hx

theorem Attempt.Keeps.finish {x : Attempt Unit} (hx : x.Keeps) {t : State} (h : x.finish = .next t) : t.Inv := by
  rcases Attempt.finish_cases h with rfl | ⟨f, s, rfl, rfl⟩
  · exact hx
  · exact State.Inv.takeFault hx f

theorem memRead_keeps (h : s.Inv) (a : Value) : (memRead a s).Keeps := by
  unfold memRead
  split <;> exact h

theorem memWrite_keeps (h : s.Inv) (a : Value) (v : Word) : (memWrite a v s).Keeps := by
  unfold memWrite
  split
  · exact h
  · next ha => exact h.writeWord _ _ (by omega)

theorem mergeWrite_keeps (h : s.Inv) (a : Value) (src mh : Word) : (mergeWrite a src mh s).Keeps := by
  unfold mergeWrite
  split
  · exact memWrite_keeps h _ _
  · exact (memRead_keeps h _).andThen fun _ _ h => memWrite_keeps h _ _

theorem nextWord_keeps (h : s.Inv) : (nextWord s).Keeps :=
  (memRead_keeps h _).andThen fun _ _ h => h.incr _ _

theorem pushHalf_keeps (h : s.Inv) (p : RegIndex) (src mh : Word) : (pushHalf p src mh s).Keeps :=
  mergeWrite_keeps (h.decr _ _) _ _ _

theorem popWord_keeps (h : s.Inv) (p : RegIndex) : (popWord p s).Keeps :=
  (memRead_keeps h _).andThen fun _ _ h => h.incr _ _

theorem pushCall_keeps (h : s.Inv) (a : Value) : (pushCall a s).Keeps :=
  (memWrite_keeps (h.decr _ _) _ _).andThen fun _ _ h => memWrite_keeps (h.decr _ _) _ _

theorem popCall_keeps (h : s.Inv) : (popCall s).Keeps :=
  (popWord_keeps h _).andThen fun _ _ h => (popWord_keeps h _).andThen fun _ _ h => h

end Sys2Proof.Machine
end

