-- ==== Sys2Proof/Laws/PerInstr.lean ====
section
/-! SUPPORT. Statements about every instruction, one lemma per constructor. FirstWordRow: the first word of an
instruction's encoding selects its own row of the opcode map (spec/30_encoding.md R93), and the length read off that word
(R97) is the number of words encoded (R107). -/

namespace Sys2Proof.Laws

/-- The first word encoded selects the instruction's row, and says how many words there are. -/
def FirstWordRow.Statement (i : Instr) : Prop :=
  ∃ w rest, encode i = w :: rest ∧ w &&& i.row.1 = i.row.2 ∧ instrLength w = 1 + rest.length

/-- One word. -/
theorem firstWordRow_of_one {i : Instr} {w k v : Word} (he : encode i = [w]) (hrow : i.row = (k, v)) (hr : w &&& k = v)
    (hl : instrLength w = 1) : FirstWordRow.Statement i := ⟨w, [], he, by rw [hrow]; exact hr, hl⟩

/-- A first word and a maskable immediate. -/
theorem firstWordRow_of_imm {i : Instr} {w k v : Word} {m : Nibble} {imm : Value} (he : encode i = withImm w m imm)
    (hrow : i.row = (k, v)) (hr : w &&& k = v) (hl : instrLength w = 1 + maskableWords m) : FirstWordRow.Statement i := by
  refine ⟨w, immWords m imm, he, by rw [hrow]; exact hr, ?_⟩
  rw [hl]
  cases h1 : lowsel m <;> cases h2 : upsel m <;> simp [maskableWords, immWords, h1, h2]

/-- A first word and a branch target. -/
theorem firstWordRow_of_target {i : Instr} {w k v : Word} {a : Value} (he : encode i = withTarget w a)
    (hrow : i.row = (k, v)) (hr : w &&& k = v) (hl : instrLength w = 3) : FirstWordRow.Statement i :=
  ⟨w, [lo16 a, hi16 a], he, by rw [hrow]; exact hr, hl⟩

theorem FirstWordRow.load (m : Nibble) (n : BitVec 4) : FirstWordRow.Statement (.load m n) :=
  firstWordRow_of_one rfl rfl ((firstMemory_and _ _ _).trans (by decide)) (by simp [instrLength])

theorem FirstWordRow.store (m : Nibble) (n : BitVec 4) : FirstWordRow.Statement (.store m n) :=
  firstWordRow_of_one rfl rfl ((firstMemory_and _ _ _).trans (by decide)) (by simp [instrLength])

theorem FirstWordRow.push (m : Nibble) (n : BitVec 4) : FirstWordRow.Statement (.push m n) :=
  firstWordRow_of_one rfl rfl ((firstMemory_and _ _ _).trans (by decide)) (by simp [instrLength])

theorem FirstWordRow.pop (m : Nibble) (n : BitVec 4) : FirstWordRow.Statement (.pop m n) :=
  firstWordRow_of_one rfl rfl ((firstMemory_and _ _ _).trans (by decide)) (by simp [instrLength])

theorem FirstWordRow.add (d src : RegIndex) : FirstWordRow.Statement (.add d src) :=
  firstWordRow_of_one rfl rfl ((firstAlu_and _ _ _ _ _ _ (by decide)).trans (by decide)) (by simp [instrLength])

theorem FirstWordRow.sub (d src : RegIndex) : FirstWordRow.Statement (.sub d src) :=
  firstWordRow_of_one rfl rfl ((firstAlu_and _ _ _ _ _ _ (by decide)).trans (by decide)) (by simp [instrLength])

theorem FirstWordRow.mul (d src : RegIndex) : FirstWordRow.Statement (.mul d src) :=
  firstWordRow_of_one rfl rfl ((firstAlu_and _ _ _ _ _ _ (by decide)).trans (by decide)) (by simp [instrLength])

theorem FirstWordRow.div (d src : RegIndex) : FirstWordRow.Statement (.div d src) :=
  firstWordRow_of_one rfl rfl ((firstAlu_and _ _ _ _ _ _ (by decide)).trans (by decide)) (by simp [instrLength])

theorem FirstWordRow.rem (d src : RegIndex) : FirstWordRow.Statement (.rem d src) :=
  firstWordRow_of_one rfl rfl ((firstAlu_and _ _ _ _ _ _ (by decide)).trans (by decide)) (by simp [instrLength])

theorem FirstWordRow.min (d src : RegIndex) : FirstWordRow.Statement (.min d src) :=
  firstWordRow_of_one rfl rfl ((firstAlu_and _ _ _ _ _ _ (by decide)).trans (by decide)) (by simp [instrLength])

theorem FirstWordRow.max (d src : RegIndex) : FirstWordRow.Statement (.max d src) :=
  firstWordRow_of_one rfl rfl ((firstAlu_and _ _ _ _ _ _ (by decide)).trans (by decide)) (by simp [instrLength])

theorem FirstWordRow.addi (d : RegIndex) (m : Nibble) (v : Value) : FirstWordRow.Statement (.addi d m v) :=
  firstWordRow_of_imm rfl rfl ((firstAlu_and _ _ _ _ _ _ (by decide)).trans (by decide)) (by simp [instrLength])

theorem FirstWordRow.subi (d : RegIndex) (m : Nibble) (v : Value) : FirstWordRow.Statement (.subi d m v) :=
  firstWordRow_of_imm rfl rfl ((firstAlu_and _ _ _ _ _ _ (by decide)).trans (by decide)) (by simp [instrLength])

theorem FirstWordRow.muli (d : RegIndex) (m : Nibble) (v : Value) : FirstWordRow.Statement (.muli d m v) :=
  firstWordRow_of_imm rfl rfl ((firstAlu_and _ _ _ _ _ _ (by decide)).trans (by decide)) (by simp [instrLength])

theorem FirstWordRow.divi (d : RegIndex) (m : Nibble) (v : Value) : FirstWordRow.Statement (.divi d m v) :=
  firstWordRow_of_imm rfl rfl ((firstAlu_and _ _ _ _ _ _ (by decide)).trans (by decide)) (by simp [instrLength])

theorem FirstWordRow.remi (d : RegIndex) (m : Nibble) (v : Value) : FirstWordRow.Statement (.remi d m v) :=
  firstWordRow_of_imm rfl rfl ((firstAlu_and _ _ _ _ _ _ (by decide)).trans (by decide)) (by simp [instrLength])

theorem FirstWordRow.mini (d : RegIndex) (m : Nibble) (v : Value) : FirstWordRow.Statement (.mini d m v) :=
  firstWordRow_of_imm rfl rfl ((firstAlu_and _ _ _ _ _ _ (by decide)).trans (by decide)) (by simp [instrLength])

theorem FirstWordRow.maxi (d : RegIndex) (m : Nibble) (v : Value) : FirstWordRow.Statement (.maxi d m v) :=
  firstWordRow_of_imm rfl rfl ((firstAlu_and _ _ _ _ _ _ (by decide)).trans (by decide)) (by simp [instrLength])

theorem FirstWordRow.shr (d src : RegIndex) : FirstWordRow.Statement (.shr d src) :=
  firstWordRow_of_one rfl rfl ((firstShiftReg_and _ _ _).trans (by decide)) (by simp [instrLength])

theorem FirstWordRow.shl (d src : RegIndex) : FirstWordRow.Statement (.shl d src) :=
  firstWordRow_of_one rfl rfl ((firstShiftReg_and _ _ _).trans (by decide)) (by simp [instrLength])

theorem FirstWordRow.shri (d : RegIndex) (n : BitVec 5) : FirstWordRow.Statement (.shri d n) :=
  firstWordRow_of_one rfl rfl ((firstShiftImm_and _ _ _).trans (by decide)) (by simp [instrLength])

theorem FirstWordRow.shli (d : RegIndex) (n : BitVec 5) : FirstWordRow.Statement (.shli d n) :=
  firstWordRow_of_one rfl rfl ((firstShiftImm_and _ _ _).trans (by decide)) (by simp [instrLength])

theorem FirstWordRow.and (d src : RegIndex) : FirstWordRow.Statement (.and d src) :=
  firstWordRow_of_one rfl rfl ((firstAlu_and _ _ _ _ _ _ (by decide)).trans (by decide)) (by simp [instrLength])

theorem FirstWordRow.or (d src : RegIndex) : FirstWordRow.Statement (.or d src) :=
  firstWordRow_of_one rfl rfl ((firstAlu_and _ _ _ _ _ _ (by decide)).trans (by decide)) (by simp [instrLength])

theorem FirstWordRow.xor (d src : RegIndex) : FirstWordRow.Statement (.xor d src) :=
  firstWordRow_of_one rfl rfl ((firstAlu_and _ _ _ _ _ _ (by decide)).trans (by decide)) (by simp [instrLength])

theorem FirstWordRow.nand (d src : RegIndex) : FirstWordRow.Statement (.nand d src) :=
  firstWordRow_of_one rfl rfl ((firstAlu_and _ _ _ _ _ _ (by decide)).trans (by decide)) (by simp [instrLength])

theorem FirstWordRow.not (d src : RegIndex) : FirstWordRow.Statement (.not d src) :=
  firstWordRow_of_one rfl rfl ((firstAlu_and _ _ _ _ _ _ (by decide)).trans (by decide)) (by simp [instrLength])

theorem FirstWordRow.andi (d : RegIndex) (m : Nibble) (v : Value) : FirstWordRow.Statement (.andi d m v) :=
  firstWordRow_of_imm rfl rfl ((firstAlu_and _ _ _ _ _ _ (by decide)).trans (by decide)) (by simp [instrLength])

theorem FirstWordRow.ori (d : RegIndex) (m : Nibble) (v : Value) : FirstWordRow.Statement (.ori d m v) :=
  firstWordRow_of_imm rfl rfl ((firstAlu_and _ _ _ _ _ _ (by decide)).trans (by decide)) (by simp [instrLength])

theorem FirstWordRow.xori (d : RegIndex) (m : Nibble) (v : Value) : FirstWordRow.Statement (.xori d m v) :=
  firstWordRow_of_imm rfl rfl ((firstAlu_and _ _ _ _ _ _ (by decide)).trans (by decide)) (by simp [instrLength])

theorem FirstWordRow.nandi (d : RegIndex) (m : Nibble) (v : Value) : FirstWordRow.Statement (.nandi d m v) :=
  firstWordRow_of_imm rfl rfl ((firstAlu_and _ _ _ _ _ _ (by decide)).trans (by decide)) (by simp [instrLength])

theorem FirstWordRow.noti (d : RegIndex) (m : Nibble) (v : Value) : FirstWordRow.Statement (.noti d m v) :=
  firstWordRow_of_imm rfl rfl ((firstAlu_and _ _ _ _ _ _ (by decide)).trans (by decide)) (by simp [instrLength])

theorem FirstWordRow.eq (d src : RegIndex) : FirstWordRow.Statement (.eq d src) :=
  firstWordRow_of_one rfl rfl ((firstAlu_and _ _ _ _ _ _ (by decide)).trans (by decide)) (by simp [instrLength])

theorem FirstWordRow.ne (d src : RegIndex) : FirstWordRow.Statement (.ne d src) :=
  firstWordRow_of_one rfl rfl ((firstAlu_and _ _ _ _ _ _ (by decide)).trans (by decide)) (by simp [instrLength])

theorem FirstWordRow.lt (d src : RegIndex) : FirstWordRow.Statement (.lt d src) :=
  firstWordRow_of_one rfl rfl ((firstAlu_and _ _ _ _ _ _ (by decide)).trans (by decide)) (by simp [instrLength])

theorem FirstWordRow.gt (d src : RegIndex) : FirstWordRow.Statement (.gt d src) :=
  firstWordRow_of_one rfl rfl ((firstAlu_and _ _ _ _ _ _ (by decide)).trans (by decide)) (by simp [instrLength])

theorem FirstWordRow.le (d src : RegIndex) : FirstWordRow.Statement (.le d src) :=
  firstWordRow_of_one rfl rfl ((firstAlu_and _ _ _ _ _ _ (by decide)).trans (by decide)) (by simp [instrLength])

theorem FirstWordRow.ge (d src : RegIndex) : FirstWordRow.Statement (.ge d src) :=
  firstWordRow_of_one rfl rfl ((firstAlu_and _ _ _ _ _ _ (by decide)).trans (by decide)) (by simp [instrLength])

theorem FirstWordRow.eqi (d : RegIndex) (m : Nibble) (v : Value) : FirstWordRow.Statement (.eqi d m v) :=
  firstWordRow_of_imm rfl rfl ((firstAlu_and _ _ _ _ _ _ (by decide)).trans (by decide)) (by simp [instrLength])

theorem FirstWordRow.nei (d : RegIndex) (m : Nibble) (v : Value) : FirstWordRow.Statement (.nei d m v) :=
  firstWordRow_of_imm rfl rfl ((firstAlu_and _ _ _ _ _ _ (by decide)).trans (by decide)) (by simp [instrLength])

theorem FirstWordRow.lti (d : RegIndex) (m : Nibble) (v : Value) : FirstWordRow.Statement (.lti d m v) :=
  firstWordRow_of_imm rfl rfl ((firstAlu_and _ _ _ _ _ _ (by decide)).trans (by decide)) (by simp [instrLength])

theorem FirstWordRow.gti (d : RegIndex) (m : Nibble) (v : Value) : FirstWordRow.Statement (.gti d m v) :=
  firstWordRow_of_imm rfl rfl ((firstAlu_and _ _ _ _ _ _ (by decide)).trans (by decide)) (by simp [instrLength])

theorem FirstWordRow.lei (d : RegIndex) (m : Nibble) (v : Value) : FirstWordRow.Statement (.lei d m v) :=
  firstWordRow_of_imm rfl rfl ((firstAlu_and _ _ _ _ _ _ (by decide)).trans (by decide)) (by simp [instrLength])

theorem FirstWordRow.gei (d : RegIndex) (m : Nibble) (v : Value) : FirstWordRow.Statement (.gei d m v) :=
  firstWordRow_of_imm rfl rfl ((firstAlu_and _ _ _ _ _ _ (by decide)).trans (by decide)) (by simp [instrLength])

theorem FirstWordRow.mtc (d : RegIndex) : FirstWordRow.Statement (.mtc d) :=
  firstWordRow_of_one rfl rfl ((firstAlu_and _ _ _ _ _ _ (by decide)).trans (by decide)) (by simp [instrLength])

theorem FirstWordRow.mfc (d : RegIndex) : FirstWordRow.Statement (.mfc d) :=
  firstWordRow_of_one rfl rfl ((firstAlu_and _ _ _ _ _ _ (by decide)).trans (by decide)) (by simp [instrLength])

theorem FirstWordRow.jmp (t : RegIndex) : FirstWordRow.Statement (.jmp t) :=
  firstWordRow_of_one rfl rfl ((firstBranch_and _ _ _ _).trans (by decide)) (by simp [instrLength])

theorem FirstWordRow.jmpi (a : Value) : FirstWordRow.Statement (.jmpi a) :=
  firstWordRow_of_target rfl rfl ((firstBranch_and _ _ _ _).trans (by decide)) (by simp [instrLength])

theorem FirstWordRow.call (t : RegIndex) : FirstWordRow.Statement (.call t) :=
  firstWordRow_of_one rfl rfl ((firstBranch_and _ _ _ _).trans (by decide)) (by simp [instrLength])

theorem FirstWordRow.calli (a : Value) : FirstWordRow.Statement (.calli a) :=
  firstWordRow_of_target rfl rfl ((firstBranch_and _ _ _ _).trans (by decide)) (by simp [instrLength])

theorem FirstWordRow.jmpc (t : RegIndex) : FirstWordRow.Statement (.jmpc t) :=
  firstWordRow_of_one rfl rfl ((firstBranch_and _ _ _ _).trans (by decide)) (by simp [instrLength])

theorem FirstWordRow.jmpci (a : Value) : FirstWordRow.Statement (.jmpci a) :=
  firstWordRow_of_target rfl rfl ((firstBranch_and _ _ _ _).trans (by decide)) (by simp [instrLength])

theorem FirstWordRow.callc (t : RegIndex) : FirstWordRow.Statement (.callc t) :=
  firstWordRow_of_one rfl rfl ((firstBranch_and _ _ _ _).trans (by decide)) (by simp [instrLength])

theorem FirstWordRow.callci (a : Value) : FirstWordRow.Statement (.callci a) :=
  firstWordRow_of_target rfl rfl ((firstBranch_and _ _ _ _).trans (by decide)) (by simp [instrLength])

theorem FirstWordRow.move (m : Nibble) (d src : RegIndex) : FirstWordRow.Statement (.move m d src) :=
  firstWordRow_of_one rfl rfl ((firstNibbles_and_op _ _ _ _).trans (by decide)) (by simp [instrLength])

theorem FirstWordRow.set (m : Nibble) (d : RegIndex) (v : Value) : FirstWordRow.Statement (.set m d v) :=
  firstWordRow_of_imm rfl rfl ((firstNibbles_and_op _ _ _ _).trans (by decide)) (by simp [instrLength])

theorem FirstWordRow.swap (d src : RegIndex) : FirstWordRow.Statement (.swap d src) :=
  firstWordRow_of_one rfl rfl ((firstNibbles_and_op _ _ _ _).trans (by decide)) (by simp [instrLength])

theorem FirstWordRow.ret : FirstWordRow.Statement (.ret) :=
  firstWordRow_of_one rfl rfl ((firstNibbles_and_style _ _ _ _).trans (by decide)) (by simp [instrLength])

theorem FirstWordRow.terminate : FirstWordRow.Statement (.terminate) :=
  firstWordRow_of_one rfl rfl ((firstNibbles_and_style _ _ _ _).trans (by decide)) (by simp [instrLength])

theorem FirstWordRow.getc (d : RegIndex) : FirstWordRow.Statement (.getc d) :=
  firstWordRow_of_one rfl rfl ((firstNibbles_and_style _ _ _ _).trans (by decide)) (by simp [instrLength])

theorem FirstWordRow.putc (d : RegIndex) : FirstWordRow.Statement (.putc d) :=
  firstWordRow_of_one rfl rfl ((firstNibbles_and_style _ _ _ _).trans (by decide)) (by simp [instrLength])

end Sys2Proof.Laws
end

