-- ==== Sys2Proof/Tests/Slice0.lean ====
section
/-! SUPPORT. The model's own tests. Expected results come from spec/: words from the encoding rules R83 to R95, results
from section 2 of spec/95_test_vectors.md ("V" below), or by hand from the rule named. -/

namespace Sys2Proof.Tests

set_option Elab.async false

open Sys2Proof Sys2Proof.Machine

/-! ### Helpers -/

/-- A core with CAPACITY 1024. -/
def small : Params := { Params.standard with capExp := 9 }

/-- A core with both readings signed and the arithmetic right shift. -/
def signedCore : Params :=
  { Params.standard with arithInterp := .signed, compareInterp := .signed, shiftRightKind := .arithmetic }

/-- Write the listed registers. -/
def putRegs (rs : List (RegIndex × Value)) (s : State) : State := rs.foldl (fun s c => s.setReg c.1 c.2) s

/-- Write the listed memory words, each address modulo CAPACITY. -/
def putWords (ws : List (Nat × Word)) (s : State) : State :=
  ws.foldl (fun s c => s.setMem (s.mem.writeWord (c.1 % s.params.capacity) c.2)) s

/-- Reset at the given parameters, with registers, memory words, and an instruction's words at `pc`. -/
def coreAt (p : Params) (pc : Nat) (rs : List (RegIndex × Value)) (ws : List (Nat × Word)) (code : List Word) : State :=
  putRegs (rs ++ [(IP, BitVec.ofNat 32 pc)])
    (putWords (ws ++ (List.range code.length).map fun k => (pc + k, code.getD k 0#16)) (State.resetWith p))

/-- Reset with registers, and an instruction's words at address 0. -/
def core (rs : List (RegIndex × Value)) (code : List Word) : State := coreAt Params.standard 0 rs [] code

/-- One step leads to a state with the property. -/
def after (s : State) (p : State → Bool) : Bool :=
  match step s with
  | .next t => p t
  | _ => false

theorem exists_of_after {s : State} {p : State → Bool} (h : after s p = true) : ∃ t, step s = .next t ∧ p t = true := by
  unfold after at h
  split at h
  · exact ⟨_, ‹_›, h⟩
  · cases h

/-- One step changes IP to `ip`, and the listed registers and words, and nothing else. -/
def gives (s : State) (ip : Nat) (rs : List (RegIndex × Value)) (ws : List (Nat × Word)) : Bool :=
  after s fun t => t == putRegs (rs ++ [(IP, BitVec.ofNat 32 ip)]) (putWords ws s)

/-- One step changes IP to `ip` and the flag to `b`, and nothing else. -/
def flags (s : State) (ip : Nat) (b : Bool) : Bool :=
  after s fun t => t == (putRegs [(IP, BitVec.ofNat 32 ip)] s).setFlag b

/-- One step takes the fault with IP at `ip`, after writing the listed words, and changes nothing else. -/
def faults (s : State) (ip : Nat) (c : FaultCause) (info : Value) (ws : List (Nat × Word)) : Bool :=
  after s fun t => t == (putRegs [(IP, BitVec.ofNat 32 ip)] (putWords ws s)).takeFault { cause := c, info := info }

/-- What the decoder reads from an instruction's words, numbered as the opcode table numbers their bits. -/
def decodes (code : List Word) : Option Instr :=
  decodeTableWord (16 * code.length) (code.foldr (fun w n => w.toNat + n * 2 ^ 16) 0)

/-! ### Well-formedness: an immediate with a bit outside its nibble is refused (R103) -/

theorem test_wellFormed_refuses_addi : (Instr.addi 0#4 0b0001#4 0x100#32).wellFormed = false := by decide
theorem test_wellFormed_refuses_subi : (Instr.subi 0#4 0b0010#4 0x1#32).wellFormed = false := by decide
theorem test_wellFormed_refuses_muli : (Instr.muli 0#4 0b0000#4 0x1#32).wellFormed = false := by decide
theorem test_wellFormed_refuses_divi : (Instr.divi 0#4 0b0100#4 0x1000000#32).wellFormed = false := by decide
theorem test_wellFormed_refuses_remi : (Instr.remi 0#4 0b1000#4 0x800000#32).wellFormed = false := by decide
theorem test_wellFormed_refuses_mini : (Instr.mini 0#4 0b0011#4 0x10000#32).wellFormed = false := by decide
theorem test_wellFormed_refuses_maxi : (Instr.maxi 0#4 0b1100#4 0x8000#32).wellFormed = false := by decide
theorem test_wellFormed_refuses_andi : (Instr.andi 0#4 0b0111#4 0x80000000#32).wellFormed = false := by decide
theorem test_wellFormed_refuses_ori : (Instr.ori 0#4 0b1110#4 0x1#32).wellFormed = false := by decide
theorem test_wellFormed_refuses_xori : (Instr.xori 0#4 0b1101#4 0x100#32).wellFormed = false := by decide
theorem test_wellFormed_refuses_nandi : (Instr.nandi 0#4 0b1011#4 0x10000#32).wellFormed = false := by decide
theorem test_wellFormed_refuses_noti : (Instr.noti 0#4 0b0101#4 0x100#32).wellFormed = false := by decide
theorem test_wellFormed_refuses_eqi : (Instr.eqi 0#4 0b0001#4 0x1FF#32).wellFormed = false := by decide
theorem test_wellFormed_refuses_nei : (Instr.nei 0#4 0b0000#4 0x80000000#32).wellFormed = false := by decide
theorem test_wellFormed_refuses_lti : (Instr.lti 0#4 0b0110#4 0x1#32).wellFormed = false := by decide
theorem test_wellFormed_refuses_gti : (Instr.gti 0#4 0b1001#4 0x100#32).wellFormed = false := by decide
theorem test_wellFormed_refuses_lei : (Instr.lei 0#4 0b1010#4 0x1#32).wellFormed = false := by decide
theorem test_wellFormed_refuses_gei : (Instr.gei 0#4 0b0011#4 0xFFFFFFFF#32).wellFormed = false := by decide
theorem test_wellFormed_refuses_set : (Instr.set 0b0001#4 0#4 0x100#32).wellFormed = false := by decide

/-! ### Decoding: one written-out encoding per constructor, in the table's order -/

-- R83: off or reg 15:12, nibble 11:8, type 5:4, 0.
theorem test_decode_load : decodes [0xF300#16] = some (.load 0b0011#4 15#4) := by decide
theorem test_decode_store : decodes [0x2310#16] = some (.store 0b0011#4 2#4) := by decide
theorem test_decode_push : decodes [0x3F20#16] = some (.push 0b1111#4 3#4) := by decide
theorem test_decode_pop : decodes [0x4430#16] = some (.pop 0b0100#4 4#4) := by decide
-- R84: src 15:12, dest 11:8, style 7:5, imm 4, 1.
theorem test_decode_add : decodes [0x1001#16] = some (.add 0#4 1#4) := by decide
theorem test_decode_sub : decodes [0x1021#16] = some (.sub 0#4 1#4) := by decide
theorem test_decode_mul : decodes [0x1041#16] = some (.mul 0#4 1#4) := by decide
theorem test_decode_div : decodes [0x1061#16] = some (.div 0#4 1#4) := by decide
theorem test_decode_rem : decodes [0x1081#16] = some (.rem 0#4 1#4) := by decide
theorem test_decode_min : decodes [0x10A1#16] = some (.min 0#4 1#4) := by decide
theorem test_decode_max : decodes [0x10C1#16] = some (.max 0#4 1#4) := by decide
theorem test_decode_addi : decodes [0xC311#16, 0x1234#16] = some (.addi 3#4 0b1100#4 0x12340000#32) := by decide
theorem test_decode_subi : decodes [0x4331#16, 0x00FF#16] = some (.subi 3#4 0b0100#4 0x00FF0000#32) := by decide
theorem test_decode_muli : decodes [0x1251#16, 0x0003#16] = some (.muli 2#4 0b0001#4 3#32) := by decide
theorem test_decode_divi : decodes [0x0371#16] = some (.divi 3#4 0b0000#4 0#32) := by decide
theorem test_decode_remi : decodes [0x3291#16, 0x000A#16] = some (.remi 2#4 0b0011#4 10#32) := by decide
theorem test_decode_mini : decodes [0x12B1#16, 0xAB05#16] = some (.mini 2#4 0b0001#4 5#32) := by decide
theorem test_decode_maxi :
    decodes [0xF2D1#16, 0x0001#16, 0x8000#16] = some (.maxi 2#4 0b1111#4 0x80000001#32) := by decide
-- R85: src 14:11 or amount 15:11, dest 10:7, left 5, imm 4, 2.
theorem test_decode_shr : decodes [0x1902#16] = some (.shr 2#4 3#4) := by decide
theorem test_decode_shl : decodes [0x90E2#16] = some (.shl 1#4 2#4) := by decide
theorem test_decode_shri : decodes [0xF912#16] = some (.shri 2#4 31#5) := by decide
theorem test_decode_shli : decodes [0x2632#16] = some (.shli 12#4 4#5) := by decide
-- R86: as R84, with 3.
theorem test_decode_and : decodes [0x1003#16] = some (.and 0#4 1#4) := by decide
theorem test_decode_or : decodes [0x1023#16] = some (.or 0#4 1#4) := by decide
theorem test_decode_xor : decodes [0x3243#16] = some (.xor 2#4 3#4) := by decide
theorem test_decode_nand : decodes [0x1063#16] = some (.nand 0#4 1#4) := by decide
theorem test_decode_not : decodes [0x1083#16] = some (.not 0#4 1#4) := by decide
theorem test_decode_andi : decodes [0x1013#16, 0x000F#16] = some (.andi 0#4 0b0001#4 15#32) := by decide
theorem test_decode_ori : decodes [0x8033#16, 0x8000#16] = some (.ori 0#4 0b1000#4 0x80000000#32) := by decide
theorem test_decode_xori : decodes [0x3353#16, 0x00FF#16] = some (.xori 3#4 0b0011#4 0xFF#32) := by decide
theorem test_decode_nandi :
    decodes [0xF073#16, 0xFFFF#16, 0x0000#16] = some (.nandi 0#4 0b1111#4 0xFFFF#32) := by decide
theorem test_decode_noti :
    decodes [0xF093#16, 0x5678#16, 0x1234#16] = some (.noti 0#4 0b1111#4 0x12345678#32) := by decide
-- R87: as R84, with 4; styles 6 and 7 are the flag moves.
theorem test_decode_eq : decodes [0x1004#16] = some (.eq 0#4 1#4) := by decide
theorem test_decode_ne : decodes [0x1024#16] = some (.ne 0#4 1#4) := by decide
theorem test_decode_lt : decodes [0x1044#16] = some (.lt 0#4 1#4) := by decide
theorem test_decode_gt : decodes [0x2364#16] = some (.gt 3#4 2#4) := by decide
theorem test_decode_le : decodes [0x1084#16] = some (.le 0#4 1#4) := by decide
theorem test_decode_ge : decodes [0x10A4#16] = some (.ge 0#4 1#4) := by decide
theorem test_decode_eqi : decodes [0x1014#16, 0x01FF#16] = some (.eqi 0#4 0b0001#4 0xFF#32) := by decide
theorem test_decode_nei : decodes [0x0134#16] = some (.nei 1#4 0b0000#4 0#32) := by decide
theorem test_decode_lti :
    decodes [0xF054#16, 0x0000#16, 0x8000#16] = some (.lti 0#4 0b1111#4 0x80000000#32) := by decide
theorem test_decode_gti : decodes [0x1274#16, 0x0007#16] = some (.gti 2#4 0b0001#4 7#32) := by decide
theorem test_decode_lei : decodes [0xC394#16, 0x8000#16] = some (.lei 3#4 0b1100#4 0x80000000#32) := by decide
theorem test_decode_gei : decodes [0x31B4#16, 0x1234#16] = some (.gei 1#4 0b0011#4 0x1234#32) := by decide
theorem test_decode_mtc : decodes [0xF3D4#16] = some (.mtc 3#4) := by decide
theorem test_decode_mfc : decodes [0x04E4#16] = some (.mfc 4#4) := by decide
-- R88, R95: target 11:8, cond 6, call 5, imm 4, 5; the immediate is two words, low half first.
theorem test_decode_jmp : decodes [0x0205#16] = some (.jmp 2#4) := by decide
theorem test_decode_jmpi : decodes [0x0015#16, 0x5678#16, 0x1234#16] = some (.jmpi 0x12345678#32) := by decide
theorem test_decode_call : decodes [0x0D25#16] = some (.call 13#4) := by decide
theorem test_decode_calli : decodes [0x0035#16, 0x0010#16, 0x0000#16] = some (.calli 0x10#32) := by decide
theorem test_decode_jmpc : decodes [0x0245#16] = some (.jmpc 2#4) := by decide
theorem test_decode_jmpci : decodes [0x0055#16, 0x0004#16, 0x0000#16] = some (.jmpci 4#32) := by decide
theorem test_decode_callc : decodes [0x0365#16] = some (.callc 3#4) := by decide
theorem test_decode_callci : decodes [0x0075#16, 0x0300#16, 0x0000#16] = some (.callci 0x300#32) := by decide
-- R89: src 15:12, dest 11:8, nibble 7:4, 6. R90: dest 11:8, nibble 7:4, 7. R91: src 15:12, dest 11:8, 8.
theorem test_decode_move : decodes [0x2156#16] = some (.move 0b0101#4 1#4 2#4) := by decide
theorem test_decode_set :
    decodes [0x0CF7#16, 0x5678#16, 0x1234#16] = some (.set 0b1111#4 12#4 0x12345678#32) := by decide
theorem test_decode_swap : decodes [0x0C08#16] = some (.swap 12#4 0#4) := by decide
-- R92: reg 11:8, style 7:4, 9.
theorem test_decode_return : decodes [0x0009#16] = some .ret := by decide
theorem test_decode_terminate : decodes [0x0019#16] = some .terminate := by decide
theorem test_decode_getc : decodes [0x0329#16] = some (.getc 3#4) := by decide
theorem test_decode_putc : decodes [0x0339#16] = some (.putc 3#4) := by decide

/-- V 2.2: the words that are no instruction. -/
theorem test_decode_illegal : [0xF0F1#16, 0x00A3#16, 0x0049#16, 0x000A#16, 0xFFFF#16].map (fun w => decodes [w]) =
    [none, none, none, none, none] := by decide

/-- V 2.2: lengths in words. -/
theorem test_lengths :
    [0x0000#16, 0x3311#16, 0xC311#16, 0xF311#16, 0x0311#16, 0x0017#16, 0x00F7#16, 0x0007#16, 0x0015#16, 0x0005#16, 0xF3D4#16,
      0xF093#16, 0xF0F1#16, 0x00A3#16, 0x0049#16, 0x000A#16, 0xFFFF#16, 0x90E2#16].map instrLength =
    [1, 2, 2, 3, 1, 2, 3, 1, 3, 1, 1, 3, 1, 1, 1, 1, 1, 1] := by decide

/-- V 2.1. -/
theorem test_codec :
    decodeBits 0xABCD#16 0x0F00#16 8 = 0xB#16 ∧ encodeBits 0xABCD#16 0x15#16 0x0F00#16 8 = 0xA5CD#16 ∧
    (lo16 0xDEADBEEF#32, hi16 0xDEADBEEF#32) = (0xBEEF#16, 0xDEAD#16) ∧ cat 0xDEAD#16 0xBEEF#16 = 0xDEADBEEF#32 ∧
    (lowsel 0b0100#4, upsel 0b0100#4) = (false, true) ∧ (maskLow 0b0110#4, maskHigh 0b0110#4) = (0xFF00#16, 0x00FF#16) := by
  decide

/-! ### One step: Arithmetic (V 2.3, or by hand from R120 to R136) -/

theorem test_add_wraps : gives (core [(0#4, 0xFFFFFFFF#32), (1#4, 1#32)] [0x1001#16]) 1 [(0#4, 0#32)] [] := by decide +kernel
theorem test_add_masks_ar :
    gives (coreAt small 0 [(AR, 0x3FF#32), (1#4, 1#32)] [] [0x1C01#16]) 1 [(AR, 0#32)] [] := by decide +kernel
theorem test_sub_borrows : gives (core [(1#4, 1#32)] [0x1021#16]) 1 [(0#4, 0xFFFFFFFF#32)] [] := by decide +kernel
theorem test_mul_low_half :
    gives (core [(0#4, 0xFFFFFFFF#32), (1#4, 0xFFFFFFFF#32)] [0x1041#16]) 1 [(0#4, 1#32)] [] := by decide +kernel
theorem test_div_unsigned :
    gives (core [(0#4, 0xFFFFFFF9#32), (1#4, 2#32)] [0x1061#16]) 1 [(0#4, 0x7FFFFFFC#32)] [] := by decide +kernel
theorem test_div_signed : gives (coreAt signedCore 0 [(0#4, 7#32), (1#4, 0xFFFFFFFE#32)] [] [0x1061#16]) 1
    [(0#4, 0xFFFFFFFD#32)] [] := by decide +kernel
theorem test_rem_signed : gives (coreAt signedCore 0 [(0#4, 0xFFFFFFF9#32), (1#4, 2#32)] [] [0x1081#16]) 1
    [(0#4, 0xFFFFFFFF#32)] [] := by decide +kernel
theorem test_rem_by_zero : faults (core [(0#4, 7#32)] [0x1081#16]) 1 .divideByZero 0#32 [] := by decide +kernel
theorem test_min_unsigned :
    gives (core [(0#4, 0xFFFFFFFF#32), (1#4, 3#32)] [0x10A1#16]) 1 [(VR, 3#32)] [] := by decide +kernel
theorem test_min_signed : gives (coreAt signedCore 0 [(0#4, 0xFFFFFFFF#32), (1#4, 3#32)] [] [0x10A1#16]) 1
    [(VR, 0xFFFFFFFF#32)] [] := by decide +kernel
theorem test_max_unsigned :
    gives (core [(0#4, 0xFFFFFFFF#32), (1#4, 3#32)] [0x10C1#16]) 1 [(VR, 0xFFFFFFFF#32)] [] := by decide +kernel
theorem test_max_signed :
    gives (coreAt signedCore 0 [(0#4, 0xFFFFFFFF#32), (1#4, 3#32)] [] [0x10C1#16]) 1 [(VR, 3#32)] [] := by decide +kernel
theorem test_addi_upper_half :
    gives (core [(3#4, 1#32)] [0xC311#16, 0x1234#16]) 2 [(3#4, 0x12340001#32)] [] := by decide +kernel
theorem test_addi_two_words :
    gives (core [(3#4, 1#32)] [0xF311#16, 0xFFFF#16, 0xFFFF#16]) 3 [(3#4, 0#32)] [] := by decide +kernel
theorem test_subi_one_byte :
    gives (core [(3#4, 0x01000000#32)] [0x4331#16, 0x00FF#16]) 2 [(3#4, 0x00010000#32)] [] := by decide +kernel
theorem test_muli : gives (core [(2#4, 0x80000001#32)] [0x1251#16, 3#16]) 2 [(2#4, 0x80000003#32)] [] := by decide +kernel
theorem test_divi : gives (core [(2#4, 100#32)] [0x1271#16, 7#16]) 2 [(2#4, 14#32)] [] := by decide +kernel
theorem test_divi_by_zero : faults (core [(3#4, 77#32)] [0x0371#16]) 1 .divideByZero 0#32 [] := by decide +kernel
theorem test_remi : gives (core [(2#4, 107#32)] [0x3291#16, 10#16]) 2 [(2#4, 7#32)] [] := by decide +kernel
theorem test_mini : gives (core [(2#4, 9#32)] [0x12B1#16, 5#16]) 2 [(VR, 5#32)] [] := by decide +kernel
theorem test_maxi :
    gives (core [(2#4, 9#32)] [0xF2D1#16, 1#16, 0x8000#16]) 3 [(VR, 0x80000001#32)] [] := by decide +kernel
theorem test_arithmetic_illegal_style : faults (core [] [0xF0F1#16]) 1 .illegalStyle 0xF0F1#32 [] := by decide +kernel

/-! ### One step: Logical (V 2.4, or by hand from R141 to R151) -/

/-- V 2.4: the start of its first rows. -/
def logicalCore (w : Word) : State := core [(0#4, 0xFF00FF00#32), (1#4, 0x0FF00FF0#32)] [w]

theorem test_and : gives (logicalCore 0x1003#16) 1 [(0#4, 0x0F000F00#32)] [] := by decide +kernel
theorem test_or : gives (logicalCore 0x1023#16) 1 [(0#4, 0xFFF0FFF0#32)] [] := by decide +kernel
theorem test_xor : gives (logicalCore 0x1043#16) 1 [(0#4, 0xF0F0F0F0#32)] [] := by decide +kernel
theorem test_xor_self : gives (logicalCore 0x0043#16) 1 [(0#4, 0#32)] [] := by decide +kernel
theorem test_nand : gives (logicalCore 0x1063#16) 1 [(0#4, 0xF0FFF0FF#32)] [] := by decide +kernel
theorem test_not : gives (logicalCore 0x1083#16) 1 [(0#4, 0x00FF00FF#32)] [] := by decide +kernel
theorem test_not_masks_ar : gives (coreAt small 0 [] [] [0x0C83#16]) 1 [(AR, 0x3FF#32)] [] := by decide +kernel
theorem test_andi : gives (core [(0#4, 0x12345678#32)] [0x1013#16, 0xF#16]) 2 [(0#4, 8#32)] [] := by decide +kernel
theorem test_andi_no_word : gives (core [(0#4, 0x12345678#32)] [0x0013#16]) 1 [(0#4, 0#32)] [] := by decide +kernel
theorem test_ori : gives (core [(0#4, 1#32)] [0x8033#16, 0x8000#16]) 2 [(0#4, 0x80000001#32)] [] := by decide +kernel
theorem test_xori : gives (core [(3#4, 0xF0F0#32)] [0x3353#16, 0x00FF#16]) 2 [(3#4, 0xF00F#32)] [] := by decide +kernel
theorem test_nandi : gives (core [(0#4, 0x12345678#32)] [0xF073#16, 0xFFFF#16, 0#16]) 3
    [(0#4, 0xFFFFA987#32)] [] := by decide +kernel
theorem test_noti : gives (core [] [0xF093#16, 0x5678#16, 0x1234#16]) 3 [(0#4, 0xFFFFFFFF#32)] [] := by decide +kernel
theorem test_logical_illegal_style : faults (core [] [0x00A3#16]) 1 .illegalStyle 0xA3#32 [] := by decide +kernel

/-! ### One step: Shift (V 2.5) -/

theorem test_shr : gives (core [(2#4, 0xF0#32), (3#4, 4#32)] [0x1902#16]) 1 [(2#4, 0xF#32)] [] := by decide +kernel
theorem test_shr_self : gives (core [(2#4, 0x84#32)] [0x1102#16]) 1 [(2#4, 8#32)] [] := by decide +kernel
theorem test_shl_low_five_bits : gives (core [(2#4, 1#32), (3#4, 33#32)] [0x1922#16]) 1 [(2#4, 2#32)] [] := by decide +kernel
theorem test_shri_logical : gives (core [(2#4, 0x80000000#32)] [0xF912#16]) 1 [(2#4, 1#32)] [] := by decide +kernel
theorem test_shri_arithmetic :
    gives (coreAt signedCore 0 [(2#4, 0x80000000#32)] [] [0xF912#16]) 1 [(2#4, 0xFFFFFFFF#32)] [] := by decide +kernel
theorem test_shli_loses_top : gives (core [(2#4, 0x80000001#32)] [0x0932#16]) 1 [(2#4, 2#32)] [] := by decide +kernel
theorem test_shli_masks_ar :
    gives (coreAt small 0 [(AR, 0x3FF#32)] [] [0x2632#16]) 1 [(AR, 0x3F0#32)] [] := by decide +kernel

/-! ### One step: Compare (V 2.6, or by hand from R165 to R179) -/

theorem test_eq_self : flags (core [(0#4, 9#32)] [0x0004#16]) 1 true := by decide +kernel
theorem test_ne_equal : flags ((core [(0#4, 9#32), (1#4, 9#32)] [0x1024#16]).setFlag true) 1 false := by decide +kernel
theorem test_lt_unsigned :
    flags ((core [(0#4, 0xFFFFFFFF#32), (1#4, 3#32)] [0x1044#16]).setFlag true) 1 false := by decide +kernel
theorem test_lt_signed :
    flags (coreAt signedCore 0 [(0#4, 0xFFFFFFFF#32), (1#4, 3#32)] [] [0x1044#16]) 1 true := by decide +kernel
theorem test_gt : flags (core [(3#4, 0x123400#32), (2#4, 0xFF#32)] [0x2364#16]) 1 true := by decide +kernel
theorem test_le_equal : flags (core [(0#4, 3#32), (1#4, 3#32)] [0x1084#16]) 1 true := by decide +kernel
theorem test_ge_equal : flags (core [(0#4, 3#32), (1#4, 3#32)] [0x10A4#16]) 1 true := by decide +kernel
theorem test_eqi_masked : flags (core [(0#4, 0xFF#32)] [0x1014#16, 0x01FF#16]) 2 true := by decide +kernel
theorem test_nei_zero : flags ((core [] [0x0134#16]).setFlag true) 1 false := by decide +kernel
theorem test_lti_unsigned : flags (core [(0#4, 5#32)] [0xF054#16, 0#16, 0x8000#16]) 3 true := by decide +kernel
theorem test_lti_signed :
    flags ((coreAt signedCore 0 [(0#4, 5#32)] [] [0xF054#16, 0#16, 0x8000#16]).setFlag true) 3 false := by decide +kernel
theorem test_gti_equal : flags ((core [(2#4, 7#32)] [0x1274#16, 7#16]).setFlag true) 2 false := by decide +kernel
theorem test_lei : flags (core [(3#4, 0x7FFFFFFF#32)] [0xC394#16, 0x8000#16]) 2 true := by decide +kernel
theorem test_gei : flags ((core [(1#4, 0x1233#32)] [0x31B4#16, 0x1234#16]).setFlag true) 2 false := by decide +kernel
theorem test_mtc_true : flags (core [(3#4, 0x80000000#32)] [0x03C4#16]) 1 true := by decide +kernel
theorem test_mtc_zero : flags ((core [] [0x03C4#16]).setFlag true) 1 false := by decide +kernel
theorem test_mfc_true :
    gives ((core [(3#4, 5#32)] [0x03E4#16]).setFlag true) 1 [(3#4, 0xFFFFFFFF#32)] [] := by decide +kernel
theorem test_mfc_false : gives (core [(3#4, 5#32)] [0x03E4#16]) 1 [(3#4, 0#32)] [] := by decide +kernel

/-! ### One step: Branch (V 2.7, or by hand from R185 to R193) -/

theorem test_jmp : gives (coreAt small 0x10 [(2#4, 0x12345678#32)] [] [0x0205#16]) 0x278 [] [] := by decide +kernel
theorem test_jmpi : gives (coreAt Params.standard 0x10 [] [] [0x0015#16, 0x5678#16, 0x1234#16]) 0x345678 [] [] := by
  decide +kernel
theorem test_jmpi_fetch_wraps : gives (coreAt small 0x3FE [] [] [0x0015#16, 0x40#16, 0#16]) 0x40 [] [] := by decide +kernel
theorem test_call_old_target : gives (coreAt Params.standard 0x10 [(CSP, 0x300#32)] [] [0x0D25#16]) 0x300
    [(CSP, 0x2FE#32)] [(0x2FF, 0#16), (0x2FE, 0x11#16)] := by decide +kernel
theorem test_calli_wraps : gives (coreAt small 0x10 [] [] [0x0035#16, 0x200#16, 0#16]) 0x200
    [(CSP, 0x3FE#32)] [(0x3FF, 0#16), (0x3FE, 0x13#16)] := by decide +kernel
theorem test_jmpc_true :
    gives ((coreAt Params.standard 0x10 [(2#4, 0x100#32)] [] [0x0245#16]).setFlag true) 0x100 [] [] := by decide +kernel
theorem test_jmpc_false : gives (coreAt Params.standard 0x10 [(2#4, 0x100#32)] [] [0x0245#16]) 0x11 [] [] := by
  decide +kernel
theorem test_jmpci_true : gives ((coreAt Params.standard 8 [] [] [0x0055#16, 4#16, 0#16]).setFlag true) 4 [] [] := by
  decide +kernel
theorem test_jmpci_false : gives (coreAt Params.standard 8 [] [] [0x0055#16, 4#16, 0#16]) 0xB [] [] := by decide +kernel
theorem test_callc_true :
    gives ((coreAt Params.standard 0x12345 [(CSP, 0x300#32), (3#4, 0x40#32)] [] [0x0365#16]).setFlag true) 0x40
      [(CSP, 0x2FE#32)] [(0x2FF, 1#16), (0x2FE, 0x2346#16)] := by decide +kernel
theorem test_callc_false :
    gives (coreAt Params.standard 0x12345 [(CSP, 0x300#32), (3#4, 0x40#32)] [] [0x0365#16]) 0x12346 [] [] := by
  decide +kernel
theorem test_callci_true :
    gives ((coreAt Params.standard 0x10 [(CSP, 0x1000#32)] [] [0x0075#16, 0x300#16, 0#16]).setFlag true) 0x300
      [(CSP, 0xFFE#32)] [(0xFFF, 0#16), (0xFFE, 0x13#16)] := by decide +kernel
theorem test_callci_false :
    gives (coreAt Params.standard 0x10 [(CSP, 0x1000#32)] [] [0x0075#16, 0x300#16, 0#16]) 0x13 [] [] := by decide +kernel

/-! ### One step: Memory (V 2.8) -/

theorem test_load_partial : gives (coreAt small 0 [(AR, 0x3F0#32), (VR, 0xAAAAAAAA#32)] [(0x3FF, 0x7777#16)] [0xF300#16]) 1
    [(VR, 0xAAAA7777#32)] [] := by decide +kernel
theorem test_load_out_of_range :
    faults (coreAt { Params.standard with capExp := 27 } 0 [(AR, 0x0FFFFFFF#32), (VR, 5#32)] [] [0xFF00#16]) 1
      .illegalAddress 0x1000000E#32 [] := by decide +kernel
theorem test_store_one_byte :
    gives (coreAt Params.standard 0 [(AR, 0x100#32), (VR, 0xDEADBEEF#32)] [(0x100, 0x1111#16), (0x101, 0x2222#16)]
      [0x0210#16]) 1 [] [(0x100, 0xBE11#16)] := by decide +kernel
theorem test_store_half_done :
    faults (coreAt small 0 [(AR, 0x3F0#32), (VR, 0xDEADBEEF#32)] [] [0xFF10#16]) 1 .illegalAddress 0x400#32
      [(0x3FF, 0xBEEF#16)] := by decide +kernel
theorem test_push_full : gives (core [(3#4, 0xDEADBEEF#32)] [0x3F20#16]) 1 [(SP, 0xFFFFFE#32)]
    [(0xFFFFFF, 0xDEAD#16), (0xFFFFFE, 0xBEEF#16)] := by decide +kernel
theorem test_push_half : gives (core [(3#4, 0xDEADBEEF#32), (SP, 0x200#32)] [0x3320#16]) 1 [(SP, 0x1FF#32)]
    [(0x1FF, 0xBEEF#16)] := by decide +kernel
theorem test_pop_one_byte :
    gives (coreAt Params.standard 0 [(4#4, 0xAAAAAAAA#32), (SP, 0x1FE#32)] [(0x1FE, 0xBEEF#16), (0x1FF, 0xDEAD#16)]
      [0x4430#16]) 1 [(4#4, 0xAAEFAAAA#32), (SP, 0x1FF#32)] [] := by decide +kernel
theorem test_pop_ip : gives (coreAt Params.standard 0 [(SP, 0x1FE#32)] [(0x1FE, 0x40#16)] [0xFF30#16]) 0x40
    [(SP, 0x200#32)] [] := by decide +kernel

/-! ### One step: Move, Set, Swap (V 2.9) -/

theorem test_move_zero_fills : gives (core [(1#4, 0xAAAAAAAA#32), (2#4, 0xDEADBEEF#32)] [0x2156#16]) 1
    [(1#4, 0x00AD00EF#32)] [] := by decide +kernel
theorem test_move_ip : gives (coreAt Params.standard 0x10 [] [] [0xF1F6#16]) 0x11 [(1#4, 0x11#32)] [] := by decide +kernel
theorem test_set_masks_ar : gives (coreAt small 0 [] [] [0x0CF7#16, 0x5678#16, 0x1234#16]) 3 [(AR, 0x278#32)] [] := by
  decide +kernel
theorem test_set_clears : gives (core [(0#4, 0xFFFFFFFF#32)] [0x0007#16]) 1 [(0#4, 0#32)] [] := by decide +kernel
theorem test_swap : gives (core [(0#4, 1#32), (1#4, 2#32)] [0x1008#16]) 1 [(0#4, 2#32), (1#4, 1#32)] [] := by decide +kernel
theorem test_swap_masks : gives (coreAt small 0 [(AR, 5#32), (0#4, 0xFFFFFFFF#32)] [] [0x0C08#16]) 1
    [(AR, 0x3FF#32), (0#4, 5#32)] [] := by decide +kernel

/-! ### One step: Misc and illegal words (V 2.10) -/

theorem test_return : gives (coreAt Params.standard 0 [(CSP, 0xFFE#32)] [(0xFFE, 0x5678#16), (0xFFF, 0x1234#16)] [0x0009#16])
    0x345678 [(CSP, 0x1000#32)] [] := by decide +kernel
theorem test_return_wraps :
    gives (coreAt small 0x20 [(CSP, 0x3FF#32)] [(0x3FF, 0x40#16), (0, 9#16)] [0x0009#16]) 0x40 [(CSP, 1#32)] [] := by
  decide +kernel
theorem test_terminate : after (coreAt Params.standard 5 [] [] [0x0019#16])
    (fun t => t == (putRegs [(IP, 6#32)] (coreAt Params.standard 5 [] [] [0x0019#16])).stop) := by decide +kernel
theorem test_getc : after { core [(3#4, 0xFFFFFFFF#32)] [0x0329#16] with input := [0xFF#8, 7#8] }
    (fun t => t == { core [(3#4, 0xFF#32), (IP, 1#32)] [0x0329#16] with
      input := [7#8], regs := (putRegs [(3#4, 0xFF#32), (IP, 1#32)] State.reset).regs }) := by decide +kernel
theorem test_putc : after (core [(3#4, 0x12345641#32)] [0x0339#16])
    (fun t => t.output == [0x41#8] && t.reg IP == 1#32 && t.reg 3#4 == 0x12345641#32) := by decide +kernel
theorem test_misc_illegal_style : faults (core [] [0x0049#16]) 1 .illegalStyle 0x49#32 [] := by decide +kernel
theorem test_illegal_opcode : faults (core [] [0xFFFF#16]) 1 .illegalOpcode 0xFFFF#32 [] := by decide +kernel

/-! ### The host (V 2.11) -/

theorem test_set_register_index : hostGetRegister 15 (hostSetRegister 31 7#32 State.reset) = 7#32 := by decide +kernel
theorem test_vr_is_not_masked :
    hostGetRegister 11 (hostSetRegister 11 0x12345678#32 (State.resetWith small)) = 0x12345678#32 := by decide +kernel
theorem test_ar_is_masked :
    hostGetRegister 12 (hostSetRegister 12 0x12345678#32 (State.resetWith small)) = 0x278#32 := by decide +kernel

/-- V 2.11: the core of CAPACITY 2 whose image is written out. -/
def imageCore : State :=
  putRegs [(0#4, 0x11223344#32)] (putWords [(0, 0xBEEF#16), (1, 0x19#16)] (State.resetWith { Params.standard with capExp := 0 }))

/-- V 2.11: that image. -/
def imageBytes : List Byte :=
  [0x44#8, 0x33#8, 0x22#8, 0x11#8] ++ List.replicate 60 0#8 ++ [0xEF#8, 0xBE#8, 0x19#8, 0x00#8]

theorem test_dump : dumpImage imageCore = imageBytes := by decide +kernel
theorem test_install : installImage imageBytes (State.resetWith imageCore.params) = some imageCore := by decide +kernel

/-- What the host asks of a table word: it runs as the first instruction after reset. -/
theorem test_fetch_word_runs :
    after (State.reset.withFetchWord 48 0x123456780CF7) (fun t => t.reg AR == 0x345678#32 && t.reg IP == 3#32) := by
  decide +kernel

/-! ### Witnesses: for each statement with hypotheses, values that meet them together -/

/-- `Masked` over the sixteen registers, as a test. -/
def masked (s : State) : Bool :=
  (List.range 16).all fun i => s.reg (BitVec.ofNat 4 i) &&& regmask s.params (BitVec.ofNat 4 i) == s.reg (BitVec.ofNat 4 i)

theorem masked_of_test {s : State} (h : masked s = true) : s.Masked := by
  intro i
  have := List.all_eq_true.mp h i.toNat (List.mem_range.mpr i.isLt)
  simpa using this

/-- `Inv`, as a test. -/
def sound (s : State) : Bool :=
  masked s && decide s.mem.wf && decide (∀ c ∈ s.mem, c.1 < 2 * s.params.capacity) &&
    (!s.keepExecuting || s.fault == none)

theorem inv_of_test {s : State} (h : sound s = true) : s.Inv := by
  simp only [sound, Bool.and_eq_true, decide_eq_true_eq] at h
  obtain ⟨⟨⟨h1, h2⟩, h3⟩, h4⟩ := h
  refine ⟨masked_of_test h1, h2, h3, fun hk => ?_⟩
  simpa [hk] using h4

theorem witness_CodecRoundTrip :
    (0x1F#16 <<< 11) >>> 11 = 0x1F#16 ∧ (0x1F#16 <<< 11) &&& 0xF800#16 = 0x1F#16 <<< 11 := by decide

theorem witness_NibbleGatesBytes :
    0 < 32 ∧ 31 < 32 ∧ (expand 0b1000#4).getLsbD 31 = true ∧ (expand 0b1000#4).getLsbD 23 = false := by decide

theorem witness_DecodeOfEncodeIsSelf :
    (Instr.addi 3#4 0b1100#4 0x12340000#32).wellFormed = true ∧ (Instr.set 0b1111#4 15#4 0xFFFFFFFF#32).wellFormed = true ∧
    (Instr.load 15#4 15#4).wellFormed = true := by decide

theorem witness_DecodedIsWellFormed : decode 0x1014#16 0x01FF#16 0#16 = .ok (.eqi 0#4 0b0001#4 0xFF#32) := rfl

theorem witness_OpcodeMapSelectsRow : 0xF3D4#16 &&& (Instr.mtc 0#4).row.1 = (Instr.mtc 0#4).row.2 := by decide

theorem witness_IllegalFirstWords :
    10#16 ≤ 0x000A#16 &&& 0x000F#16 ∧ ¬ 10#16 ≤ 0x0009#16 &&& 0x000F#16 ∧
    UndefinedStyle 0x00E1#16 ∧ ¬ UndefinedStyle 0x00C1#16 ∧ UndefinedStyle 0x00A3#16 ∧ ¬ UndefinedStyle 0x0083#16 ∧
    UndefinedStyle 0x0049#16 ∧ ¬ UndefinedStyle 0x0039#16 := by unfold UndefinedStyle; decide

theorem witness_LengthFromFirstWord :
    (∃ first, decodeFirst 0xF311#16 = .ok first ∧ first.extraWords = 2) ∧
    (∃ first, decodeFirst 0x0005#16 = .ok first ∧ first.extraWords = 0) ∧
    (∃ e, decodeFirst 0xF0F1#16 = .error e) := ⟨⟨_, rfl, rfl⟩, ⟨_, rfl, rfl⟩, ⟨_, rfl⟩⟩

theorem witness_StepRunsDecodedInstruction :
    (coreAt small 0x3FE [] [] [0x0015#16, 0x40#16, 0#16]).Masked ∧
    (coreAt small 0x3FE [] [] [0x0015#16, 0x40#16, 0#16]).keepExecuting = true ∧
    decode (fetchWord (coreAt small 0x3FE [] [] [0x0015#16, 0x40#16, 0#16]) 0#32)
      (fetchWord (coreAt small 0x3FE [] [] [0x0015#16, 0x40#16, 0#16]) 1#32)
      (fetchWord (coreAt small 0x3FE [] [] [0x0015#16, 0x40#16, 0#16]) 2#32) = .ok (.jmpi 0x40#32) :=
  ⟨masked_of_test (by decide +kernel), rfl, by
    have h : fetchWord (coreAt small 0x3FE [] [] [0x0015#16, 0x40#16, 0#16]) 0#32 = 0x0015#16 ∧
      fetchWord (coreAt small 0x3FE [] [] [0x0015#16, 0x40#16, 0#16]) 1#32 = 0x40#16 ∧
      fetchWord (coreAt small 0x3FE [] [] [0x0015#16, 0x40#16, 0#16]) 2#32 = 0#16 := by decide +kernel
    rw [h.1, h.2.1, h.2.2]; rfl⟩

theorem witness_StepTakesIllegalOpcode :
    (core [] [0x000A#16]).Masked ∧ (core [] [0x000A#16]).keepExecuting = true ∧
    10#16 ≤ fetchWord (core [] [0x000A#16]) 0#32 &&& 0x000F#16 ∧
    10#16 ≤ fetchWord (core [] [0xFFFF#16]) 0#32 &&& 0x000F#16 :=
  ⟨masked_of_test (by decide +kernel), rfl, by decide +kernel, by decide +kernel⟩

theorem witness_StepTakesIllegalStyle :
    (core [] [0xF0F1#16]).Masked ∧ (core [] [0xF0F1#16]).keepExecuting = true ∧
    UndefinedStyle (fetchWord (core [] [0xF0F1#16]) 0#32) ∧ UndefinedStyle (fetchWord (core [] [0x00A3#16]) 0#32) ∧
    UndefinedStyle (fetchWord (core [] [0x0049#16]) 0#32) := by
  refine ⟨masked_of_test (by decide +kernel), rfl, ?_⟩
  unfold UndefinedStyle; decide +kernel

theorem witness_HaltedCoreRunsNothing : State.reset.stop.keepExecuting = false := rfl

theorem witness_HaltsOnlyByTerminateOrFault :
    ((core [] [0x0019#16]).Inv ∧ (core [] [0x0019#16]).keepExecuting = true ∧
      ∃ t, step (core [] [0x0019#16]) = .next t ∧ (!t.keepExecuting && t.fault == none) = true) ∧
    ((core [] [0xFFFF#16]).Inv ∧ (core [] [0xFFFF#16]).keepExecuting = true ∧
      ∃ t, step (core [] [0xFFFF#16]) = .next t ∧ (!t.keepExecuting && t.fault != none) = true) :=
  ⟨⟨inv_of_test (by decide +kernel), rfl, exists_of_after (by decide +kernel)⟩,
    ⟨inv_of_test (by decide +kernel), rfl, exists_of_after (by decide +kernel)⟩⟩

theorem witness_StepKeepsInvariant :
    (core [(3#4, 0xDEADBEEF#32)] [0x3F20#16]).Inv ∧
    ∃ t, step (core [(3#4, 0xDEADBEEF#32)] [0x3F20#16]) = .next t ∧ (t.reg SP == 0xFFFFFE#32) = true :=
  ⟨inv_of_test (by decide +kernel), exists_of_after (by decide +kernel)⟩

theorem witness_StepKeepsParameters : ∃ t, step (core [] [0x0009#16]) = .next t ∧ (t.reg CSP == 2#32) = true :=
  exists_of_after (by decide +kernel)

theorem witness_StopsOnlyWhereSpecStops :
    (∃ t, exec .ret State.reset = .next t) ∧ exec (.getc 3#4) State.reset = .fault .inputExhausted ∧
    exec (.divi 0#4 0b1111#4 0xFFFFFFFF#32) (coreAt signedCore 0 [(0#4, 0x80000000#32)] [] []) =
      .fault .signedDivideOverflow := ⟨⟨_, rfl⟩, rfl, rfl⟩

theorem witness_OnlyCompareWritesFlag : ∃ t, exec (.eq 0#4 0#4) State.reset = .next t ∧ t.flag ≠ State.reset.flag :=
  ⟨_, rfl, by decide⟩

theorem witness_IllegalAddressOnlyFromLoadStore :
    (coreAt small 0 [(AR, 0x3F1#32)] [] []).Masked ∧ (coreAt small 0 [(AR, 0x3F1#32)] [] []).fault = none ∧
    ∃ t, exec (.load 0b0001#4 15#4) (coreAt small 0 [(AR, 0x3F1#32)] [] []) = .next t ∧
      t.fault = some { cause := .illegalAddress, info := 0x400#32 } :=
  ⟨masked_of_test (by decide +kernel), rfl, _, rfl, rfl⟩

theorem witness_BadBitmaskNeverRaised :
    State.reset.fault = none ∧ ∃ t, step State.reset = .next t ∧ (t.reg IP == 1#32) = true :=
  ⟨rfl, exists_of_after (by decide +kernel)⟩

/-- The operands of the two division witnesses: -2^31 and -2, under the signed reading. -/
def divideCore : State := coreAt signedCore 0 [(0#4, 0x80000000#32), (1#4, 0xFFFFFFFE#32)] [] []

theorem witness_DivRemRegister :
    divideCore.reg 1#4 ≠ 0#32 ∧
    ¬ Unrepresentable divideCore.params.arithInterp (divideCore.reg 0#4) (divideCore.reg 1#4) ∧
    ¬ Unrepresentable .signed 0x80000001#32 0xFFFFFFFF#32 ∧ ¬ Unrepresentable .unsigned 0x80000000#32 0xFFFFFFFF#32 := by
  unfold Unrepresentable; decide +kernel

theorem witness_DivRemImmediate :
    (0xFFFFFFFE#32 : Value) ≠ 0#32 ∧
    ¬ Unrepresentable divideCore.params.arithInterp (divideCore.reg 0#4) 0xFFFFFFFE#32 := by
  unfold Unrepresentable; decide +kernel

theorem witness_DivideByZeroTaken : State.reset.reg 1#4 = 0#32 := rfl

theorem witness_SignedDivideOverflowStops :
    Unrepresentable (coreAt signedCore 0 [(0#4, 0x80000000#32), (1#4, 0xFFFFFFFF#32)] [] []).params.arithInterp
      ((coreAt signedCore 0 [(0#4, 0x80000000#32), (1#4, 0xFFFFFFFF#32)] [] []).reg 0#4)
      ((coreAt signedCore 0 [(0#4, 0x80000000#32), (1#4, 0xFFFFFFFF#32)] [] []).reg 1#4) := by
  unfold Unrepresentable; decide +kernel

/-- CallThenReturnResumes, PopCompletes, PushThenPopRestores and ReturnResult ask only for masked registers (and
PushThenPopRestores for a register other than SP). -/
theorem witness_Masked : (coreAt small 0x3FF [(SP, 0x3FF#32), (CSP, 1#32)] [] []).Masked ∧ (3#4 : RegIndex) ≠ SP :=
  ⟨masked_of_test (by decide +kernel), by decide⟩

/-- LoadCompletes, StoreCompletes and StoreThenLoadRestores: the last two words of memory; and the nibble 0 at an address that does not
exist. -/
theorem witness_AccessInRange :
    (effAddr 14#4 (coreAt small 0 [(AR, 0x3F0#32)] [] [])).toNat < small.capacity ∧
    (effAddr 14#4 (coreAt small 0 [(AR, 0x3F0#32)] [] []) + 1#32).toNat = small.capacity - 1 ∧
    lowsel 0#4 = false ∧ upsel 0#4 = false := by decide +kernel

/-- LoadRaisesIllegalAddress and StoreRaisesIllegalAddress: the lower word at CAPACITY; the upper word at CAPACITY with the lower one in range,
and with the lower one not selected. -/
theorem witness_AccessOutOfRange :
    (lowsel 0b0001#4 = true ∧ (effAddr 15#4 (coreAt small 0 [(AR, 0x3F1#32)] [] [])).toNat = small.capacity) ∧
    (lowsel 0b1111#4 = true ∧ upsel 0b1111#4 = true ∧
      (effAddr 15#4 (coreAt small 0 [(AR, 0x3F0#32)] [] [])).toNat < small.capacity ∧
      (effAddr 15#4 (coreAt small 0 [(AR, 0x3F0#32)] [] []) + 1#32).toNat = small.capacity) ∧
    (lowsel 0b1100#4 = false ∧ upsel 0b1100#4 = true) := by decide +kernel

theorem witness_GetcReadsByte : { State.reset with input := [0x61#8] }.input = 0x61#8 :: [] := rfl

theorem witness_GetcStuckWithoutInput : State.reset.input = [] := rfl

theorem witness_HostAccessorsObeyBounds :
    (0x3FF#32 : Value).toNat < (State.resetWith small).params.capacity ∧
    (State.resetWith small).params.capacity ≤ (0x400#32 : Value).toNat := by decide +kernel

theorem witness_ImageInstallThenDump :
    imageBytes.length = 64 + 2 * imageCore.params.capacity ∧
    (imageBytes ++ [0#8]).length ≠ 64 + 2 * imageCore.params.capacity := by decide +kernel

end Sys2Proof.Tests
end

section
/-! The codec's round trips (spec/00_scope.md R6 to R11): what a field reads back after a write, and the halves as slices. -/

namespace Sys2Proof

/-- R7: under its mask a written value holds the shifted field alone; the old bits under the mask are gone. -/
theorem encodeBits_and_mask {n : Nat} (x f m : BitVec n) (k : Nat) : encodeBits x f m k &&& m = (f <<< k) &&& m := by
  apply BitVec.eq_of_getLsbD_eq
  intro i hi
  simp only [encodeBits, BitVec.getLsbD_or, BitVec.getLsbD_and, BitVec.getLsbD_not]
  cases m.getLsbD i <;> simp

/-- R10: a field that fits, in its width (`hwidth`) and under its mask (`hmask`), is read back as it was written. -/
theorem decodeBits_encodeBits {n : Nat} (x f m : BitVec n) (k : Nat) (hwidth : (f <<< k) >>> k = f)
    (hmask : (f <<< k) &&& m = f <<< k) : decodeBits (encodeBits x f m k) m k = f := by
  rw [decodeBits, encodeBits_and_mask, hmask, hwidth]

/-- R9: the high byte stands above the low one. -/
theorem combine_eq_append (l u : Byte) : combine l u = u ++ l := by
  calc combine l u = (u.setWidth 16 <<< 8) ||| l.setWidth 16 := BitVec.or_comm _ _
    _ = (u ++ l).setWidth 16 := BitVec.setWidth_append_eq_shiftLeft_setWidth_or.symm
    _ = u ++ l := BitVec.setWidth_eq _

/-- R10: a word written as its high byte above its low byte. -/
theorem upperHalf_append_lowerHalf (w : Word) : upperHalf w ++ lowerHalf w = w := by
  rw [← combine_eq_append, combine_lowerHalf_upperHalf]

theorem lowerHalf_eq_extractLsb' (w : Word) : lowerHalf w = w.extractLsb' 0 8 := by
  conv_rhs => rw [← upperHalf_append_lowerHalf w]
  exact BitVec.extractLsb'_append_eq_right.symm

theorem upperHalf_eq_extractLsb' (w : Word) : upperHalf w = w.extractLsb' 8 8 := by
  conv_rhs => rw [← upperHalf_append_lowerHalf w]
  exact BitVec.extractLsb'_append_eq_left.symm

/-- Settles O1: the field law is `decodeBits_encodeBits`; the halves are the two slices of a word, put together by
`combine` and, one level up, by `cat`. -/
theorem codecRoundTrip : Obligations.CodecRoundTrip :=
  ⟨fun _ => decodeBits_encodeBits, fun w => ⟨lowerHalf_eq_extractLsb' w, upperHalf_eq_extractLsb' w⟩, combine_eq_append,
    combine_lowerHalf_upperHalf, cat_hi16_lo16⟩

end Sys2Proof
end

section
/-! The encodings of the groups with a style and an immediate bit (spec/30_encoding.md R84, R86, R87): what one row of the
decoder says of every word of its opcode and style, carried over to the words the rules write. -/

namespace Sys2Proof.Machine

variable {op style base : Word} {regForm : RegIndex → RegIndex → Instr} {immForm : RegIndex → Nibble → Value → Instr}

/-- A word the encoder builds is the rule's word: the base is the low byte, the operands stand at bits 11:8 and 15:12. -/
theorem ruleWord_firstAlu (op style : Word) (imm : Bool) (a b : BitVec 4) :
    ruleWord (firstAlu op imm style 0#4 0#4) a b = firstAlu op imm style a b := by
  apply BitVec.eq_of_getLsbD_eq
  intro i hi
  simp only [ruleWord, firstAlu, encodeBits]
  interval_cases i <;> simp

theorem oneWord_of_complete {w : Word} {i : Instr} (hdec : decodeFirst w = .ok (.complete i)) (hlen : instrLength w = 1) :
    OneWord w i := ⟨hlen, fun w1 w2 => by rw [decode, hdec]; rfl⟩

/-- R94: the decoder's immediate, masked after the absent halves are filled with zeros, is the rule's in each of the four
selections of halves. -/
theorem immWords_of_maskable {w : Word} {m : Nibble} {build : Value → Instr}
    (hdec : decodeFirst w = .ok (.maskable m build)) (hlen : instrLength w = 1 + maskableWords m) : ImmWords w m build := by
  refine ⟨by rw [hlen, maskableWords, Nat.add_assoc], fun w1 w2 => ?_⟩
  rw [decode, hdec]
  simp only [FirstWord.finish, maskableImm, maskedImm]
  cases lowsel m <;> cases upsel m
  case false.false => simp [cat]
  case false.true | true.false | true.true => rfl

/-- One row of the decoder: a word of this opcode and style is the register form or, with the immediate bit set, the
immediate form, and its length (R97) follows the same bit. -/
structure StyleSelects (op style : Word) (regForm : RegIndex → RegIndex → Instr)
    (immForm : RegIndex → Nibble → Value → Instr) : Prop where
  decodes : ∀ w, opField w = op.setWidth 4 → styleField w = (style &&& 7#16).setWidth 4 →
    decodeFirst w = .ok (regOrImm regForm immForm w)
  length : ∀ w, opField w = op.setWidth 4 → styleField w = (style &&& 7#16).setWidth 4 →
    instrLength w = if immBit w then 1 + maskableWords (field15to12 w) else 1

theorem StyleSelects.oneWord (h : StyleSelects op style regForm immForm) (hbase : base = firstAlu op false style 0#4 0#4)
    (d src : RegIndex) : OneWord (ruleWord base d src) (regForm d src) := by
  rw [hbase, ruleWord_firstAlu]
  apply oneWord_of_complete
  · rw [h.decodes _ (by simp) (by simp)]
    simp [regOrImm]
  · rw [h.length _ (by simp) (by simp)]
    simp

theorem StyleSelects.immWords (h : StyleSelects op style regForm immForm) (hbase : base = firstAlu op true style 0#4 0#4)
    (d : RegIndex) (m : Nibble) : ImmWords (ruleWord base d m) m (immForm d m) := by
  rw [hbase, ruleWord_firstAlu]
  apply immWords_of_maskable
  · rw [h.decodes _ (by simp) (by simp)]
    simp [regOrImm]
  · rw [h.length _ (by simp) (by simp)]
    simp

end Sys2Proof.Machine
end

section
/-! Arithmetic without division (spec/41_arithmetic.md R121 to R134): the rows of the decoder, the two ways the results are
delivered, and the statements assembled from them. -/

namespace Sys2Proof.Machine

/-! ### The rows of the decoder (R84) -/

/-- The Arithmetic group defines the styles 0 to 6 (R100), and a word of each has the length its immediate bit gives. -/
theorem styleSelects_arithmetic {style : Word} {regForm : RegIndex → RegIndex → Instr}
    {immForm : RegIndex → Nibble → Value → Instr} (hstyle : (style &&& 7#16).setWidth 4 ≤ 6#4)
    (hrow : ∀ w, styleField w = (style &&& 7#16).setWidth 4 → decodeArithmetic w = .ok (regOrImm regForm immForm w)) :
    StyleSelects 1#16 style regForm immForm where
  decodes w hop hst := by
    have hgroup : decodeFirst w = decodeArithmetic w := by rw [decodeFirst, hop]; rfl
    rw [hgroup, hrow w hst]
  length w hop hst := by
    have hgroup : instrLength w =
        if immBit w && decide (styleField w ≤ 6#4) then 1 + maskableWords (field15to12 w) else 1 := by
      rw [instrLength, hop]; rfl
    rw [hgroup, hst, decide_eq_true hstyle, Bool.and_true]

theorem styleSelects_add : StyleSelects 1#16 0#16 .add .addi :=
  styleSelects_arithmetic (by decide) fun _ h => by rw [decodeArithmetic, h]; rfl

theorem styleSelects_sub : StyleSelects 1#16 1#16 .sub .subi :=
  styleSelects_arithmetic (by decide) fun _ h => by rw [decodeArithmetic, h]; rfl

theorem styleSelects_mul : StyleSelects 1#16 2#16 .mul .muli :=
  styleSelects_arithmetic (by decide) fun _ h => by rw [decodeArithmetic, h]; rfl

theorem styleSelects_min : StyleSelects 1#16 5#16 .min .mini :=
  styleSelects_arithmetic (by decide) fun _ h => by rw [decodeArithmetic, h]; rfl

theorem styleSelects_max : StyleSelects 1#16 6#16 .max .maxi :=
  styleSelects_arithmetic (by decide) fun _ h => by rw [decodeArithmetic, h]; rfl

/-! ### Delivering a result -/

/-- R27: a register write leaves everything but its register unchanged. -/
theorem regWritten_setReg (d : RegIndex) (v : Value) (s : State) : RegWritten d v s (s.setReg d v) := by
  refine ⟨State.setReg_reg_same s d v, ?_⟩
  constructor
  case reg => exact fun i hi => State.setReg_reg_other s d i v (by simpa using hi)
  case byte => exact fun _ _ => rfl
  all_goals rfl

theorem combineInto_writes (f : Value → Value → Value) (d : RegIndex) (b : Value) (s : State) :
    ∃ t, combineInto f d b s = .next t ∧ RegWritten d (f (s.reg d) b) s t := ⟨_, rfl, regWritten_setReg d _ s⟩

theorem selectIntoVR_writes (f : Reading → Value → Value → Value) (d : RegIndex) (b : Value) (s : State) :
    ∃ t, selectIntoVR f d b s = .next t ∧ RegWritten VR (f s.params.arithInterp (s.reg d) b) s t :=
  ⟨_, rfl, regWritten_setReg VR _ s⟩

/-- R126, R168: the meanings compare by the value of the operands, the rule by the order of the words. -/
theorem less_eq_below (r : Reading) (a b : Value) : less r a b = below r a b := by
  cases r with
  | unsigned => rfl
  | signed => rfl

theorem minInto_writes (d : RegIndex) (b : Value) (s : State) :
    ∃ t, selectIntoVR minValue d b s = .next t ∧
      RegWritten VR (if below s.params.arithInterp (s.reg d) b then s.reg d else b) s t := by
  rw [← less_eq_below]
  exact selectIntoVR_writes minValue d b s

theorem maxInto_writes (d : RegIndex) (b : Value) (s : State) :
    ∃ t, selectIntoVR maxValue d b s = .next t ∧
      RegWritten VR (if below s.params.arithInterp (s.reg d) b then b else s.reg d) s t := by
  rw [← less_eq_below]
  exact selectIntoVR_writes maxValue d b s

/-! ### The statements -/

/-- Settles O23: each word by its row of the decoder, each result by `combineInto_writes`. -/
theorem addSubMulRegister : Obligations.AddSubMulRegister := fun d src s =>
  ⟨⟨styleSelects_add.oneWord (by decide) d src, combineInto_writes (· + ·) d (s.reg src) s⟩,
    ⟨styleSelects_sub.oneWord (by decide) d src, combineInto_writes (· - ·) d (s.reg src) s⟩,
    ⟨styleSelects_mul.oneWord (by decide) d src, combineInto_writes (· * ·) d (s.reg src) s⟩⟩

/-- Settles O24: the immediate forms of the same rows, with the immediate for the second operand. -/
theorem addSubMulImmediate : Obligations.AddSubMulImmediate := fun d m v s =>
  ⟨⟨styleSelects_add.immWords (by decide) d m, combineInto_writes (· + ·) d v s⟩,
    ⟨styleSelects_sub.immWords (by decide) d m, combineInto_writes (· - ·) d v s⟩,
    ⟨styleSelects_mul.immWords (by decide) d m, combineInto_writes (· * ·) d v s⟩⟩

/-- Settles O29: the result goes to VR, selected by the rule's own order (`less_eq_below`). -/
theorem minMaxRegister : Obligations.MinMaxRegister := fun d src s =>
  ⟨⟨styleSelects_min.oneWord (by decide) d src, minInto_writes d (s.reg src) s⟩,
    ⟨styleSelects_max.oneWord (by decide) d src, maxInto_writes d (s.reg src) s⟩⟩

/-- Settles O30: as O29, with the immediate for the second operand. -/
theorem minMaxImmediate : Obligations.MinMaxImmediate := fun d m v s =>
  ⟨⟨styleSelects_min.immWords (by decide) d m, minInto_writes d v s⟩,
    ⟨styleSelects_max.immWords (by decide) d m, maxInto_writes d v s⟩⟩

end Sys2Proof.Machine
end

section
/-! The logical instructions in the register form (spec/42_logical.md R141 to R145): the rows of the decoder's Logical group,
and the statement assembled from them. -/

namespace Sys2Proof.Machine

/-- The Logical group defines the styles 0 to 4 (R100), and a word of each has the length its immediate bit gives. -/
theorem styleSelects_logical {style : Word} {regForm : RegIndex → RegIndex → Instr}
    {immForm : RegIndex → Nibble → Value → Instr} (hstyle : (style &&& 7#16).setWidth 4 ≤ 4#4)
    (hrow : ∀ w, styleField w = (style &&& 7#16).setWidth 4 → decodeLogical w = .ok (regOrImm regForm immForm w)) :
    StyleSelects 3#16 style regForm immForm where
  decodes w hop hst := by
    have hgroup : decodeFirst w = decodeLogical w := by rw [decodeFirst, hop]; rfl
    rw [hgroup, hrow w hst]
  length w hop hst := by
    have hgroup : instrLength w =
        if immBit w && decide (styleField w ≤ 4#4) then 1 + maskableWords (field15to12 w) else 1 := by
      rw [instrLength, hop]; rfl
    rw [hgroup, hst, decide_eq_true hstyle, Bool.and_true]

theorem styleSelects_and : StyleSelects 3#16 0#16 .and .andi :=
  styleSelects_logical (by decide) fun _ h => by rw [decodeLogical, h]; rfl

theorem styleSelects_or : StyleSelects 3#16 1#16 .or .ori :=
  styleSelects_logical (by decide) fun _ h => by rw [decodeLogical, h]; rfl

theorem styleSelects_xor : StyleSelects 3#16 2#16 .xor .xori :=
  styleSelects_logical (by decide) fun _ h => by rw [decodeLogical, h]; rfl

theorem styleSelects_nand : StyleSelects 3#16 3#16 .nand .nandi :=
  styleSelects_logical (by decide) fun _ h => by rw [decodeLogical, h]; rfl

theorem styleSelects_not : StyleSelects 3#16 4#16 .not .noti :=
  styleSelects_logical (by decide) fun _ h => by rw [decodeLogical, h]; rfl

/-- R145: `not` writes the complement of its destination, whatever its second operand names. -/
theorem execNot_writes (d src : RegIndex) (s : State) :
    ∃ t, execNot d src s = .next t ∧ RegWritten d (~~~(s.reg d)) s t := ⟨_, rfl, regWritten_setReg d _ s⟩

/-- Settles O31: each word by its row of the decoder, the two-operand results by `combineInto_writes`, the complement by
`execNot_writes`. -/
theorem logicalRegister : Obligations.LogicalRegister := fun d src s =>
  ⟨⟨styleSelects_and.oneWord (by decide) d src, combineInto_writes (· &&& ·) d (s.reg src) s⟩,
    ⟨styleSelects_or.oneWord (by decide) d src, combineInto_writes (· ||| ·) d (s.reg src) s⟩,
    ⟨styleSelects_xor.oneWord (by decide) d src, combineInto_writes (· ^^^ ·) d (s.reg src) s⟩,
    ⟨styleSelects_nand.oneWord (by decide) d src, combineInto_writes nandValue d (s.reg src) s⟩,
    ⟨styleSelects_not.oneWord (by decide) d src, execNot_writes d src s⟩⟩

end Sys2Proof.Machine
end

section
/-! The immediate shifts (spec/43_shift.md R155, R158, R159): words with ignored bits set, the decoder's Shift group, and the
shifted values as the rule's arithmetic. -/

namespace Sys2Proof.Machine

/-! ### Ignored bits -/

/-- R6: a field does not read the bits outside its mask. -/
theorem decodeBits_or_ignored {n : Nat} (w x : BitVec n) {ignored m : BitVec n} (k : Nat) (h : ignored &&& m = 0#n) :
    decodeBits (w ||| (x &&& ignored)) m k = decodeBits w m k := by
  rw [decodeBits, BitVec.and_or_distrib_right, BitVec.and_assoc, h, BitVec.and_zero, BitVec.or_zero, decodeBits]

theorem nibbleField_or_ignored (w x : Word) {ignored m : Word} (k : Nat) (h : ignored &&& m = 0#16) :
    nibbleField (w ||| (x &&& ignored)) m k = nibbleField w m k := by
  rw [nibbleField, decodeBits_or_ignored w x k h, nibbleField]

theorem flagField_or_ignored (w x : Word) {ignored m : Word} (k : Nat) (h : ignored &&& m = 0#16) :
    flagField (w ||| (x &&& ignored)) m k = flagField w m k := by
  rw [flagField, decodeBits_or_ignored w x k h, flagField]

/-! ### The decoder's Shift group (R85) -/

theorem decodeFirst_of_shift {w : Word} (hop : opField w = 2#4) : decodeFirst w = .ok (decodeShift w) := by
  rw [decodeFirst, hop]; rfl

theorem instrLength_of_shift {w : Word} (hop : opField w = 2#4) : instrLength w = 1 := by
  rw [instrLength, hop]; rfl

/-- R85: no field of the group covers bit 6. -/
theorem decodeShift_or_bit6 (w x : Word) : decodeShift (w ||| (x &&& 0x0040#16)) = decodeShift w := by
  have hdest := nibbleField_or_ignored w x (ignored := 0x0040#16) (m := 0x0780#16) 7 (by decide)
  have hsrc := nibbleField_or_ignored w x (ignored := 0x0040#16) (m := 0x7800#16) 11 (by decide)
  have hamount := decodeBits_or_ignored w x (ignored := 0x0040#16) (m := 0xF800#16) 11 (by decide)
  have hleft := flagField_or_ignored w x (ignored := 0x0040#16) (m := 0x0020#16) 5 (by decide)
  have himm : immBit (w ||| (x &&& 0x0040#16)) = immBit w := flagField_or_ignored w x 4 (by decide)
  rw [decodeShift, hdest, hsrc, hamount, hleft, himm, decodeShift]

theorem decodeShift_firstShiftImm (left : Bool) (d : RegIndex) (n : BitVec 5) :
    decodeShift (firstShiftImm left d n) = .complete (if left then .shli d n else .shri d n) := by
  cases left <;> simp [decodeShift]

/-- R158, R159: the word the encoder builds is the rule's, with bit 6 clear. -/
theorem firstShiftImm_eq_rule (left : Bool) (d : RegIndex) (n : BitVec 5) :
    firstShiftImm left d n =
      (if left then 0x0032#16 else 0x0012#16) ||| (d.setWidth 16 <<< 7) ||| (n.setWidth 16 <<< 11) := by
  apply BitVec.eq_of_getLsbD_eq
  intro i hi
  simp only [firstShiftImm, firstShift, encodeBits]
  cases left <;> interval_cases i <;> simp

theorem oneWord_shiftImm (left : Bool) (d : RegIndex) (n : BitVec 5) (x : Word) :
    OneWord ((if left then 0x0032#16 else 0x0012#16) ||| (d.setWidth 16 <<< 7) ||| (n.setWidth 16 <<< 11) |||
      (x &&& 0x0040#16)) (if left then .shli d n else .shri d n) := by
  rw [← firstShiftImm_eq_rule]
  have hop : opField (firstShiftImm left d n ||| (x &&& 0x0040#16)) = 2#4 :=
    (nibbleField_or_ignored _ x 0 (by decide)).trans (opField_firstShiftImm left d n)
  refine oneWord_of_complete ?_ (instrLength_of_shift hop)
  rw [decodeFirst_of_shift hop, decodeShift_or_bit6, decodeShift_firstShiftImm]

/-! ### The shifted values (R155) -/

theorem shiftLeftValue_eq_rule (a : Value) (n : Nat) : shiftLeftValue a n = ruleShiftLeft a n := by
  apply BitVec.eq_of_toNat_eq
  rw [shiftLeftValue, ruleShiftLeft, BitVec.toNat_shiftLeft, BitVec.toNat_ofNat, Nat.shiftLeft_eq]

/-- R155: each kind of right shift is the floor division by `2 ^ n` of its own reading of the bits. -/
theorem shiftRightValue_eq_rule (k : ShiftKind) (a : Value) (n : Nat) : shiftRightValue k a n = ruleShiftRight k a n := by
  cases k with
  | logical =>
    calc a >>> n = BitVec.ofNat 32 (a >>> n).toNat := by rw [BitVec.ofNat_toNat, BitVec.setWidth_eq]
      _ = BitVec.ofNat 32 (a.toNat / 2 ^ n) := by rw [BitVec.toNat_ushiftRight, Nat.shiftRight_eq_div_pow]
  | arithmetic =>
    calc a.sshiftRight n = BitVec.ofInt 32 (a.sshiftRight n).toInt := BitVec.ofInt_toInt.symm
      _ = BitVec.ofInt 32 (a.toInt / 2 ^ n) := by
        rw [BitVec.toInt_sshiftRight, Int.shiftRight_eq_div_pow]; norm_cast

theorem execShri_writes (d : RegIndex) (n : BitVec 5) (s : State) :
    ∃ t, execShri d n s = .next t ∧
      RegWritten d (ruleShiftRight s.params.shiftRightKind (s.reg d) n.toNat) s t := by
  rw [← shiftRightValue_eq_rule]
  exact ⟨_, rfl, regWritten_setReg d _ s⟩

theorem execShli_writes (d : RegIndex) (n : BitVec 5) (s : State) :
    ∃ t, execShli d n s = .next t ∧ RegWritten d (ruleShiftLeft (s.reg d) n.toNat) s t := by
  rw [← shiftLeftValue_eq_rule]
  exact ⟨_, rfl, regWritten_setReg d _ s⟩

/-- Settles O34: the two words differ in the direction bit alone (`oneWord_shiftImm`); the results are the rule's values by
`execShri_writes` and `execShli_writes`. -/
theorem shiftImmediate : Obligations.ShiftImmediate := fun d n x s =>
  ⟨⟨oneWord_shiftImm false d n x, execShri_writes d n s⟩, ⟨oneWord_shiftImm true d n x, execShli_writes d n s⟩⟩

end Sys2Proof.Machine
end

section
/-! The comparisons (spec/44_compare.md R165 to R177): the rows of the decoder's Compare group, the outcomes as the rules
write them, the flag as the only thing written, and the two statements assembled from these. -/

namespace Sys2Proof.Machine

/-! ### The rows of the decoder (R87) -/

/-- The styles 0 to 5 of the Compare group have an immediate form; 6 and 7 are the flag moves, one word each. -/
theorem styleSelects_compare {style : Word} {regForm : RegIndex → RegIndex → Instr}
    {immForm : RegIndex → Nibble → Value → Instr} (hstyle : (style &&& 7#16).setWidth 4 ≤ 5#4)
    (hrow : ∀ w, styleField w = (style &&& 7#16).setWidth 4 → decodeCompare w = regOrImm regForm immForm w) :
    StyleSelects 4#16 style regForm immForm where
  decodes w hop hst := by
    have hgroup : decodeFirst w = .ok (decodeCompare w) := by rw [decodeFirst, hop]; rfl
    rw [hgroup, hrow w hst]
  length w hop hst := by
    have hgroup : instrLength w =
        if immBit w && decide (styleField w ≤ 5#4) then 1 + maskableWords (field15to12 w) else 1 := by
      rw [instrLength, hop]; rfl
    rw [hgroup, hst, decide_eq_true hstyle, Bool.and_true]

theorem styleSelects_eq : StyleSelects 4#16 0#16 .eq .eqi :=
  styleSelects_compare (by decide) fun _ h => by rw [decodeCompare, h]; rfl

theorem styleSelects_ne : StyleSelects 4#16 1#16 .ne .nei :=
  styleSelects_compare (by decide) fun _ h => by rw [decodeCompare, h]; rfl

theorem styleSelects_lt : StyleSelects 4#16 2#16 .lt .lti :=
  styleSelects_compare (by decide) fun _ h => by rw [decodeCompare, h]; rfl

theorem styleSelects_gt : StyleSelects 4#16 3#16 .gt .gti :=
  styleSelects_compare (by decide) fun _ h => by rw [decodeCompare, h]; rfl

theorem styleSelects_le : StyleSelects 4#16 4#16 .le .lei :=
  styleSelects_compare (by decide) fun _ h => by rw [decodeCompare, h]; rfl

theorem styleSelects_ge : StyleSelects 4#16 5#16 .ge .gei :=
  styleSelects_compare (by decide) fun _ h => by rw [decodeCompare, h]; rfl

/-! ### The outcomes (R166 to R171)

Equality ignores the reading; the four orders are `less` with its operands in the rule's order, negated for `le` and `ge`. -/

theorem cmpEq_eq_rule (r : Reading) (a b : Value) : cmpEq r a b = decide (a = b) := beq_eq_decide a b

theorem cmpNe_eq_rule (r : Reading) (a b : Value) : cmpNe r a b = decide (a ≠ b) := by
  rw [cmpNe, bne, beq_eq_decide, ← decide_not]

theorem cmpLt_eq_rule (r : Reading) (a b : Value) : cmpLt r a b = below r a b := less_eq_below r a b

theorem cmpGt_eq_rule (r : Reading) (a b : Value) : cmpGt r a b = below r b a := less_eq_below r b a

theorem cmpLe_eq_rule (r : Reading) (a b : Value) : cmpLe r a b = !below r b a := by rw [cmpLe, less_eq_below]

theorem cmpGe_eq_rule (r : Reading) (a b : Value) : cmpGe r a b = !below r a b := by rw [cmpGe, less_eq_below]

/-! ### Writing the flag -/

/-- R32: a write of the flag leaves every register, all memory and the rest of the state unchanged. -/
theorem flagWritten_setFlag (b : Bool) (s : State) : FlagWritten b s (s.setFlag b) := by
  constructor
  case reg => exact fun i _ => s.setFlag_reg b i
  case byte => exact fun _ _ => rfl
  case flag => exact s.setFlag_flag b
  all_goals rfl

/-- R165: a comparison completes with its outcome, read by `COMPARE_INTERP`, in the flag; `rule` is the rule's own formula
for the outcome. -/
theorem compareWith_writes {f rule : Reading → Value → Value → Bool} (hrule : ∀ r a b, f r a b = rule r a b)
    (d : RegIndex) (b : Value) (s : State) :
    ∃ t, compareWith f d b s = .next t ∧ FlagWritten (rule s.params.compareInterp (s.reg d) b) s t := by
  rw [← hrule]
  exact ⟨_, rfl, flagWritten_setFlag _ s⟩

/-! ### The statements -/

/-- Settles O35: each word by its row of the decoder, each outcome by `compareWith_writes` at the rule's formula. -/
theorem compareRegister : Obligations.CompareRegister := fun d src s =>
  ⟨⟨styleSelects_eq.oneWord (by decide) d src, compareWith_writes cmpEq_eq_rule d (s.reg src) s⟩,
    ⟨styleSelects_ne.oneWord (by decide) d src, compareWith_writes cmpNe_eq_rule d (s.reg src) s⟩,
    ⟨styleSelects_lt.oneWord (by decide) d src, compareWith_writes cmpLt_eq_rule d (s.reg src) s⟩,
    ⟨styleSelects_gt.oneWord (by decide) d src, compareWith_writes cmpGt_eq_rule d (s.reg src) s⟩,
    ⟨styleSelects_le.oneWord (by decide) d src, compareWith_writes cmpLe_eq_rule d (s.reg src) s⟩,
    ⟨styleSelects_ge.oneWord (by decide) d src, compareWith_writes cmpGe_eq_rule d (s.reg src) s⟩⟩

/-- Settles O36: the immediate forms of the same rows, with the immediate for the second operand. -/
theorem compareImmediate : Obligations.CompareImmediate := fun d m b s =>
  ⟨⟨styleSelects_eq.immWords (by decide) d m, compareWith_writes cmpEq_eq_rule d b s⟩,
    ⟨styleSelects_ne.immWords (by decide) d m, compareWith_writes cmpNe_eq_rule d b s⟩,
    ⟨styleSelects_lt.immWords (by decide) d m, compareWith_writes cmpLt_eq_rule d b s⟩,
    ⟨styleSelects_gt.immWords (by decide) d m, compareWith_writes cmpGt_eq_rule d b s⟩,
    ⟨styleSelects_le.immWords (by decide) d m, compareWith_writes cmpLe_eq_rule d b s⟩,
    ⟨styleSelects_ge.immWords (by decide) d m, compareWith_writes cmpGe_eq_rule d b s⟩⟩

end Sys2Proof.Machine
end

section
/-! The jumps (spec/45_branch.md R185 to R187, R190, R191): the words of the decoder's Branch group with their ignored bits set
in any way, the effect of a branch and of its condition, and the two statements assembled from these. -/

namespace Sys2Proof.Machine

/-! ### The decoder's Branch group (R88) -/

theorem decodeFirst_of_branch {w : Word} (hop : opField w = 5#4) : decodeFirst w = .ok (decodeBranch w) := by
  rw [decodeFirst, hop]; rfl

theorem instrLength_of_branch {w : Word} (hop : opField w = 5#4) : instrLength w = if immBit w then 3 else 1 := by
  rw [instrLength, hop]; rfl

/-- R95: a branch immediate is put together from its two words, the low half first. -/
theorem targetWords_of_full {w : Word} {build : Value → Instr} (hdec : decodeFirst w = .ok (.full build))
    (hlen : instrLength w = 3) : TargetWords w build := ⟨hlen, fun w1 w2 => by rw [decode, hdec]; rfl⟩

/-- A branch word the encoder builds is the rule's word: the target register stands at bits 11:8, the bits above are 0. -/
theorem ruleWord_firstBranch (imm call cond : Bool) (r : RegIndex) :
    ruleWord (firstBranch imm call cond 0#4) r 0#4 = firstBranch imm call cond r := by
  apply BitVec.eq_of_getLsbD_eq
  intro i hi
  simp only [ruleWord, firstBranch, encodeBits]
  interval_cases i <;> simp

/-- What selects a branch word's row of the opcode map (R93): the opcode and the three variant bits. -/
structure BranchWord (imm call cond : Bool) (w : Word) : Prop where
  op : opField w = 5#4
  imm : immBit w = imm
  call : flagField w 0x0020#16 5 = call
  cond : flagField w 0x0040#16 6 = cond

/-- R101: the bits outside `W[6:0]` do not take part in the selection. -/
theorem branchWord_or_ignored (imm call cond : Bool) (r : RegIndex) (x : Word) {ignored : Word}
    (h : ignored &&& 0x007F#16 = 0#16) : BranchWord imm call cond (firstBranch imm call cond r ||| (x &&& ignored)) := by
  have outside : ∀ m, 0x007F#16 &&& m = m → ignored &&& m = 0#16 := fun m hm => by
    rw [← hm, ← BitVec.and_assoc, h, BitVec.zero_and]
  constructor
  case op => exact (nibbleField_or_ignored _ x 0 (outside _ (by decide))).trans (opField_firstBranch imm call cond r)
  case imm => exact (flagField_or_ignored _ x 4 (outside _ (by decide))).trans (immBit_firstBranch imm call cond r)
  case call => exact (flagField_or_ignored _ x 5 (outside _ (by decide))).trans (callBit_firstBranch imm call cond r)
  case cond => exact (flagField_or_ignored _ x 6 (outside _ (by decide))).trans (condBit_firstBranch imm call cond r)

/-- One call and condition variant: its words are the register form or, with the immediate bit set, the immediate form. -/
def BranchSelects (call cond : Bool) (regForm : RegIndex → Instr) (immForm : Value → Instr) : Prop :=
  ∀ imm w, BranchWord imm call cond w → decodeBranch w = branchForm regForm immForm w

theorem branchSelects_jmp : BranchSelects false false .jmp .jmpi := fun _ w h => by rw [decodeBranch, h.call, h.cond]

theorem branchSelects_jmpc : BranchSelects false true .jmpc .jmpci := fun _ w h => by rw [decodeBranch, h.call, h.cond]

section
variable {call cond : Bool} {regForm : RegIndex → Instr} {immForm : Value → Instr} {base : Word}

/-- The register form ignores bit 7 and the bits 15:12. -/
theorem BranchSelects.oneWord (h : BranchSelects call cond regForm immForm) (hbase : base = firstBranch false call cond 0#4)
    (r : RegIndex) (x : Word) : OneWord (ruleWord base r 0#4 ||| (x &&& 0xF080#16)) (regForm r) := by
  rw [hbase, ruleWord_firstBranch]
  have hw := branchWord_or_ignored false call cond r x (ignored := 0xF080#16) (by decide)
  have hr : field11to8 (firstBranch false call cond r ||| (x &&& 0xF080#16)) = r :=
    (nibbleField_or_ignored _ x 8 (by decide)).trans (field11to8_firstBranch false call cond r)
  apply oneWord_of_complete
  · rw [decodeFirst_of_branch hw.op, h _ _ hw]
    simp [branchForm, hw.imm, hr]
  · rw [instrLength_of_branch hw.op]
    simp [hw.imm]

/-- The immediate form ignores the bits 15:7, its register field among them. -/
theorem BranchSelects.targetWords (h : BranchSelects call cond regForm immForm)
    (hbase : base = firstBranch true call cond 0#4) (x : Word) : TargetWords (base ||| (x &&& 0xFF80#16)) immForm := by
  rw [hbase]
  have hw := branchWord_or_ignored true call cond 0#4 x (ignored := 0xFF80#16) (by decide)
  apply targetWords_of_full
  · rw [decodeFirst_of_branch hw.op, h _ _ hw]
    simp [branchForm, hw.imm]
  · rw [instrLength_of_branch hw.op]
    simp [hw.imm]

end

/-! ### The effect of a branch (R185) -/

theorem jumpTo_writes (a : Value) (s : State) : ∃ t, jumpTo a s = .next t ∧ RegWritten IP a s t :=
  ⟨_, rfl, regWritten_setReg IP a s⟩

theorem nothingChanged_refl (s : State) : NothingChanged s s := by
  constructor
  case reg => exact fun _ _ => rfl
  case byte => exact fun _ _ => rfl
  all_goals rfl

/-- R185: when the unconditional branch completes with the effect `taken`, the conditional one completes with that effect when
the flag is true and with none when it is false. -/
theorem whenFlag_completes {k : State → Result} {s : State} {taken : State → Prop} (h : ∃ t, k s = .next t ∧ taken t) :
    ∃ t, whenFlag k s = .next t ∧ (if s.flag then taken t else NothingChanged s t) := by
  cases hf : s.flag with
  | true => simpa [whenFlag, hf] using h
  | false => exact ⟨s, by simp [whenFlag, hf], by simpa using nothingChanged_refl s⟩

/-! ### The statements -/

/-- Settles O38: both words by the variant's row of the decoder, the jump by `jumpTo_writes`. -/
theorem jumpAlways : Obligations.JumpAlways := fun r a x s =>
  ⟨⟨branchSelects_jmp.oneWord (by decide) r x, jumpTo_writes (s.reg r) s⟩,
    ⟨branchSelects_jmp.targetWords (by decide) x, jumpTo_writes a s⟩⟩

/-- Settles O39: both words by the variant's row of the decoder, the jump of O38 under the condition. -/
theorem jumpWhenFlag : Obligations.JumpWhenFlag := fun r a x s =>
  ⟨⟨branchSelects_jmpc.oneWord (by decide) r x, whenFlag_completes (jumpTo_writes (s.reg r) s)⟩,
    ⟨branchSelects_jmpc.targetWords (by decide) x, whenFlag_completes (jumpTo_writes a s)⟩⟩

end Sys2Proof.Machine
end

section
/-! Swap (spec/47_move_set_swap.md R218): its word with the ignored bits set in any way, the effect of the two register writes
one after the other, and the statement assembled from these. -/

namespace Sys2Proof.Machine

/-! ### The decoder's Swap row (R91) -/

theorem decodeFirst_of_swap {w : Word} (hop : opField w = 8#4) :
    decodeFirst w = .ok (.complete (.swap (field11to8 w) (field15to12 w))) := by
  rw [decodeFirst, hop]; rfl

theorem instrLength_of_swap {w : Word} (hop : opField w = 8#4) : instrLength w = 1 := by
  rw [instrLength, hop]; rfl

/-- A word of nibbles the encoder builds is the rule's word: the base is the low byte, the operands stand at bits 11:8 and
15:12. -/
theorem ruleWord_firstNibbles (op : Word) (n a b : BitVec 4) :
    ruleWord (firstNibbles op n 0#4 0#4) a b = firstNibbles op n a b := by
  apply BitVec.eq_of_getLsbD_eq
  intro i hi
  simp only [ruleWord, firstNibbles, encodeBits]
  interval_cases i <;> simp

/-- R101: the bits 7:4 lie outside the opcode and both register fields. -/
theorem oneWord_swap (d src : RegIndex) (x : Word) :
    OneWord (ruleWord 0x0008#16 d src ||| (x &&& 0x00F0#16)) (.swap d src) := by
  rw [show 0x0008#16 = firstNibbles 8#16 0#4 0#4 0#4 by decide, ruleWord_firstNibbles]
  have hop : opField (firstNibbles 8#16 0#4 d src ||| (x &&& 0x00F0#16)) = 8#4 :=
    (nibbleField_or_ignored _ x 0 (by decide)).trans (opField_firstNibbles 8#16 0#4 d src)
  have hdest : field11to8 (firstNibbles 8#16 0#4 d src ||| (x &&& 0x00F0#16)) = d :=
    (nibbleField_or_ignored _ x 8 (by decide)).trans (field11to8_firstNibbles 8#16 0#4 d src)
  have hsrc : field15to12 (firstNibbles 8#16 0#4 d src ||| (x &&& 0x00F0#16)) = src :=
    (nibbleField_or_ignored _ x 12 (by decide)).trans (field15to12_firstNibbles 8#16 0#4 d src)
  refine oneWord_of_complete ?_ (instrLength_of_swap hop)
  rw [decodeFirst_of_swap hop, hdest, hsrc]

/-! ### The exchange -/

theorem execSwap_same (d : RegIndex) (s : State) : execSwap d d s = .next s := by rw [execSwap, if_pos rfl]

theorem execSwap_of_ne {d src : RegIndex} (h : d ≠ src) (s : State) :
    execSwap d src s = .next ((s.setReg d (s.reg src)).setReg src (s.reg d)) := by rw [execSwap, if_neg h]

/-- Two register writes, one after the other, leave everything but their two registers unchanged. -/
theorem frame_setReg_setReg (i j : RegIndex) (u v : Value) (s : State) :
    Frame [i, j] [] s ((s.setReg i u).setReg j v) := by
  constructor
  case reg =>
    intro k hk
    obtain ⟨hi, hj⟩ : k ≠ i ∧ k ≠ j := by simpa using hk
    calc ((s.setReg i u).setReg j v).reg k = (s.setReg i u).reg k := State.setReg_reg_other _ j k v hj
      _ = s.reg k := State.setReg_reg_other s i k u hi
  case byte => exact fun _ _ => rfl
  all_goals rfl

/-- R218: the second write does not disturb the first one's register, and its value was read before either write. -/
theorem execSwap_exchanges (d src : RegIndex) (s : State) :
    ∃ t, execSwap d src s = .next t ∧
      (if d = src then NothingChanged s t
       else t.reg d = s.reg src &&& regmask s.params d ∧ t.reg src = s.reg d &&& regmask s.params src ∧
         Frame [d, src] [] s t) := by
  by_cases h : d = src
  · subst h
    exact ⟨s, execSwap_same d s, by simpa using nothingChanged_refl s⟩
  · simp only [if_neg h]
    refine ⟨_, execSwap_of_ne h s, ?_, State.setReg_reg_same _ src _, frame_setReg_setReg d src _ _ s⟩
    rw [State.setReg_reg_other _ src d _ h, State.setReg_reg_same]

/-- Settles O53: the word by `oneWord_swap`, the effect by `execSwap_exchanges`. -/
theorem swapResult : Obligations.SwapResult := fun d src x s => ⟨oneWord_swap d src x, execSwap_exchanges d src s⟩

end Sys2Proof.Machine
end

section
/-! The expanded nibble by halves (spec/00_scope.md R11 to R13), and merging under it half by half (spec/20_memory.md
R54). -/

namespace Sys2Proof

/-- Settles O2: byte by byte, for each of the 32 positions. -/
theorem nibbleGatesBytes : Obligations.NibbleGatesBytes := fun m k hk => by
  revert m
  interval_cases k <;> decide

theorem cat_and_cat (h h' l l' : Word) : cat h l &&& cat h' l' = cat (h &&& h') (l &&& l') := by
  apply BitVec.eq_of_getLsbD_eq
  intro i hi
  simp only [cat]
  interval_cases i <;> simp

theorem cat_or_cat (h h' l l' : Word) : cat h l ||| cat h' l' = cat (h ||| h') (l ||| l') := by
  apply BitVec.eq_of_getLsbD_eq
  intro i hi
  simp only [cat]
  interval_cases i <;> simp

theorem not_cat (h l : Word) : ~~~(cat h l) = cat (~~~h) (~~~l) := by
  apply BitVec.eq_of_getLsbD_eq
  intro i hi
  simp only [cat]
  interval_cases i <;> simp

/-- R13: the expanded nibble is its two half masks. -/
theorem expand_eq_cat (m : Nibble) : expand m = cat (maskHigh m) (maskLow m) := (cat_hi16_lo16 _).symm

/-- R13: a half that is not selected has an empty mask. -/
theorem maskLow_of_not_lowsel {m : Nibble} : lowsel m = false → maskLow m = 0#16 := by revert m; decide

theorem maskHigh_of_not_upsel {m : Nibble} : upsel m = false → maskHigh m = 0#16 := by revert m; decide

namespace Machine

/-- R54: merging a value under the nibble is merging each half under its own mask. -/
theorem ruleMerge_eq_cat (old new : Value) (m : Nibble) :
    ruleMerge old new m =
      cat (merge16 (hi16 old) (hi16 new) (maskHigh m)) (merge16 (lo16 old) (lo16 new) (maskLow m)) := by
  conv_lhs => rw [ruleMerge, expand_eq_cat, ← cat_hi16_lo16 old, ← cat_hi16_lo16 new]
  rw [not_cat, cat_and_cat, cat_and_cat, cat_or_cat, merge16, merge16]

theorem mergeLower_of_not_lowsel {m : Nibble} (h : lowsel m = false) (v : Value) (w : Word) : mergeLower v w m = v := by
  rw [mergeLower, maskLow_of_not_lowsel h, merge16_none, cat_hi16_lo16]

theorem mergeUpper_of_not_upsel {m : Nibble} (h : upsel m = false) (v : Value) (w : Word) : mergeUpper v w m = v := by
  rw [mergeUpper, maskHigh_of_not_upsel h, merge16_none, cat_hi16_lo16]

/-- R201, R204: both half transfers make the whole merge. -/
theorem mergeUpper_mergeLower (v : Value) (lower upper : Word) (m : Nibble) :
    mergeUpper (mergeLower v lower m) upper m = ruleMerge v (cat upper lower) m := by
  rw [mergeUpper, mergeLower, ruleMerge_eq_cat, hi16_cat, lo16_cat, hi16_cat, lo16_cat]

end Machine

/-! ### An immediate that is already masked (R94, R103) -/

theorem immMasked_iff {m : Nibble} {v : Value} : immMasked m v = true ↔ v &&& expand m = v := beq_iff_eq

theorem immMasked_and (m : Nibble) (v : Value) : immMasked m (v &&& expand m) = true := by
  rw [immMasked_iff, BitVec.and_assoc, BitVec.and_self]

theorem immMasked_halves {m : Nibble} {v : Value} (h : immMasked m v = true) :
    hi16 v &&& maskHigh m = hi16 v ∧ lo16 v &&& maskLow m = lo16 v := by
  have hcat : cat (hi16 v &&& maskHigh m) (lo16 v &&& maskLow m) = v := by
    rw [← cat_and_cat, cat_hi16_lo16, ← expand_eq_cat, immMasked_iff.mp h]
  exact ⟨by simpa using congrArg hi16 hcat, by simpa using congrArg lo16 hcat⟩

/-- R94: a half that is not fetched is zero, and the mask had cleared it. -/
theorem maskedImm_halves {m : Nibble} {v : Value} (h : immMasked m v = true) :
    maskedImm m (if lowsel m then lo16 v else 0#16) (if upsel m then hi16 v else 0#16) = v := by
  obtain ⟨hhigh, hlow⟩ := immMasked_halves h
  have hl : (if lowsel m then lo16 v else 0#16) = lo16 v := by
    cases hs : lowsel m
    case true => rfl
    case false => rw [← hlow, maskLow_of_not_lowsel hs, BitVec.and_zero]; rfl
  have hu : (if upsel m then hi16 v else 0#16) = hi16 v := by
    cases hs : upsel m
    case true => rfl
    case false => rw [← hhigh, maskHigh_of_not_upsel hs, BitVec.and_zero]; rfl
  rw [hl, hu, maskedImm, cat_hi16_lo16, immMasked_iff.mp h]

end Sys2Proof
end

section
/-! The rows of the opcode map (spec/30_encoding.md R93): the fields a row's mask covers, and what the decoder reads from a
word of each row. -/

namespace Sys2Proof.Machine

/-! ### Fields of a selected word

A word that selects a row has the row's bits in every field under the row's mask; conversely the fields make up those
bits. -/

section
variable {w mask sel m : Word}

theorem decodeBits_of_select (h : w &&& mask = sel) (hm : mask &&& m = m) (k : Nat) :
    decodeBits w m k = decodeBits sel m k := by
  rw [decodeBits, decodeBits, ← h, BitVec.and_assoc, hm]

theorem nibbleField_of_select (h : w &&& mask = sel) (hm : mask &&& m = m) (k : Nat) :
    nibbleField w m k = nibbleField sel m k := by
  rw [nibbleField, nibbleField, decodeBits_of_select h hm]

theorem flagField_of_select (h : w &&& mask = sel) (hm : mask &&& m = m) (k : Nat) :
    flagField w m k = flagField sel m k := by
  rw [flagField, flagField, decodeBits_of_select h hm]

/-- R101: ignored bits do not take part in a row's selection. -/
theorem and_or_ignored (w x : Word) {ignored mask : Word} (h : ignored &&& mask = 0#16) :
    (w ||| (x &&& ignored)) &&& mask = w &&& mask := by
  rw [BitVec.and_or_distrib_right, BitVec.and_assoc, h, BitVec.and_zero, BitVec.or_zero]

/-- The bits under a field's mask are the field put back in its place. -/
theorem and_of_nibbleField {k : Nat} {v : BitVec 4} (h : nibbleField w m k = v) (hm : (0x000F#16 <<< k) &&& m = m) :
    w &&& m = v.setWidth 16 <<< k := by
  subst h
  have hinside : ∀ i, m.getLsbD i = true → k ≤ i ∧ i - k < 4 := fun i hi => by
    rw [← hm, BitVec.getLsbD_and, BitVec.getLsbD_shiftLeft] at hi
    by_contra hout
    by_cases hk : i < k
    · simp [hk] at hi
    · simp [show (0x000F#16).getLsbD (i - k) = false from BitVec.getLsbD_of_ge (15#4) _ (by omega)] at hi
  apply BitVec.eq_of_getLsbD_eq
  intro i hi
  by_cases hb : m.getLsbD i = true
  · obtain ⟨hk, h4⟩ := hinside i hb
    simp [nibbleField, decodeBits, hi, h4, Nat.not_lt.mpr hk, Nat.add_sub_cancel' hk, show i - k < 16 by omega]
  · by_cases hk : k ≤ i
    · simp [nibbleField, decodeBits, hb, Nat.add_sub_cancel' hk]
    · simp [hb, Nat.not_le.mp hk]

/-- The bit of a one-bit flag. -/
theorem and_of_flagField {k : Nat} {b : Bool} (h : flagField w (BitVec.twoPow 16 k) k = b) (hk : k < 16) :
    w &&& BitVec.twoPow 16 k = if b then BitVec.twoPow 16 k else 0#16 := by
  subst h
  have hone : BitVec.twoPow 16 k >>> k = 1#16 := by interval_cases k <;> decide
  rw [flagField, decodeBits, BitVec.and_twoPow]
  cases w.getLsbD k
  case false => simp
  case true => simp [hone]

/-- The bits under two masks, put together. -/
theorem and_or_of_and {m' v v' : Word} (h : w &&& m = v) (h' : w &&& m' = v') : w &&& (m ||| m') = v ||| v' := by
  rw [BitVec.and_or_distrib_left, h, h']

end

/-! ### Reading a word of a row -/

/-- The word reads as `form` and has the length that form needs (R97). -/
def ReadsAs (w : Word) (form : FirstWord) : Prop :=
  decodeFirst w = .ok form ∧ instrLength w = 1 + form.extraWords

theorem ReadsAs.oneWord {w : Word} {i : Instr} (h : ReadsAs w (.complete i)) : OneWord w i := oneWord_of_complete h.1 h.2

theorem ReadsAs.immWords {w : Word} {m : Nibble} {build : Value → Instr} (h : ReadsAs w (.maskable m build)) :
    ImmWords w m build := immWords_of_maskable h.1 h.2

/-- R82 to R92: what a word of the row of `i` reads as; only the row counts, the operands are those of the word. -/
def rowForm (i : Instr) (w : Word) : FirstWord :=
  match i with
  | .load _ _ => .complete (.load (field11to8 w) (field15to12 w))
  | .store _ _ => .complete (.store (field11to8 w) (field15to12 w))
  | .push _ _ => .complete (.push (field11to8 w) (field15to12 w))
  | .pop _ _ => .complete (.pop (field11to8 w) (field15to12 w))
  | .add _ _ => .complete (.add (field11to8 w) (field15to12 w))
  | .sub _ _ => .complete (.sub (field11to8 w) (field15to12 w))
  | .mul _ _ => .complete (.mul (field11to8 w) (field15to12 w))
  | .div _ _ => .complete (.div (field11to8 w) (field15to12 w))
  | .rem _ _ => .complete (.rem (field11to8 w) (field15to12 w))
  | .min _ _ => .complete (.min (field11to8 w) (field15to12 w))
  | .max _ _ => .complete (.max (field11to8 w) (field15to12 w))
  | .addi _ _ _ => .maskable (field15to12 w) (.addi (field11to8 w) (field15to12 w))
  | .subi _ _ _ => .maskable (field15to12 w) (.subi (field11to8 w) (field15to12 w))
  | .muli _ _ _ => .maskable (field15to12 w) (.muli (field11to8 w) (field15to12 w))
  | .divi _ _ _ => .maskable (field15to12 w) (.divi (field11to8 w) (field15to12 w))
  | .remi _ _ _ => .maskable (field15to12 w) (.remi (field11to8 w) (field15to12 w))
  | .mini _ _ _ => .maskable (field15to12 w) (.mini (field11to8 w) (field15to12 w))
  | .maxi _ _ _ => .maskable (field15to12 w) (.maxi (field11to8 w) (field15to12 w))
  | .shr _ _ => .complete (.shr (nibbleField w 0x0780#16 7) (nibbleField w 0x7800#16 11))
  | .shl _ _ => .complete (.shl (nibbleField w 0x0780#16 7) (nibbleField w 0x7800#16 11))
  | .shri _ _ => .complete (.shri (nibbleField w 0x0780#16 7) ((decodeBits w 0xF800#16 11).setWidth 5))
  | .shli _ _ => .complete (.shli (nibbleField w 0x0780#16 7) ((decodeBits w 0xF800#16 11).setWidth 5))
  | .and _ _ => .complete (.and (field11to8 w) (field15to12 w))
  | .or _ _ => .complete (.or (field11to8 w) (field15to12 w))
  | .xor _ _ => .complete (.xor (field11to8 w) (field15to12 w))
  | .nand _ _ => .complete (.nand (field11to8 w) (field15to12 w))
  | .not _ _ => .complete (.not (field11to8 w) (field15to12 w))
  | .andi _ _ _ => .maskable (field15to12 w) (.andi (field11to8 w) (field15to12 w))
  | .ori _ _ _ => .maskable (field15to12 w) (.ori (field11to8 w) (field15to12 w))
  | .xori _ _ _ => .maskable (field15to12 w) (.xori (field11to8 w) (field15to12 w))
  | .nandi _ _ _ => .maskable (field15to12 w) (.nandi (field11to8 w) (field15to12 w))
  | .noti _ _ _ => .maskable (field15to12 w) (.noti (field11to8 w) (field15to12 w))
  | .eq _ _ => .complete (.eq (field11to8 w) (field15to12 w))
  | .ne _ _ => .complete (.ne (field11to8 w) (field15to12 w))
  | .lt _ _ => .complete (.lt (field11to8 w) (field15to12 w))
  | .gt _ _ => .complete (.gt (field11to8 w) (field15to12 w))
  | .le _ _ => .complete (.le (field11to8 w) (field15to12 w))
  | .ge _ _ => .complete (.ge (field11to8 w) (field15to12 w))
  | .eqi _ _ _ => .maskable (field15to12 w) (.eqi (field11to8 w) (field15to12 w))
  | .nei _ _ _ => .maskable (field15to12 w) (.nei (field11to8 w) (field15to12 w))
  | .lti _ _ _ => .maskable (field15to12 w) (.lti (field11to8 w) (field15to12 w))
  | .gti _ _ _ => .maskable (field15to12 w) (.gti (field11to8 w) (field15to12 w))
  | .lei _ _ _ => .maskable (field15to12 w) (.lei (field11to8 w) (field15to12 w))
  | .gei _ _ _ => .maskable (field15to12 w) (.gei (field11to8 w) (field15to12 w))
  | .mtc _ => .complete (.mtc (field11to8 w))
  | .mfc _ => .complete (.mfc (field11to8 w))
  | .jmp _ => .complete (.jmp (field11to8 w))
  | .jmpi _ => .full .jmpi
  | .call _ => .complete (.call (field11to8 w))
  | .calli _ => .full .calli
  | .jmpc _ => .complete (.jmpc (field11to8 w))
  | .jmpci _ => .full .jmpci
  | .callc _ => .complete (.callc (field11to8 w))
  | .callci _ => .full .callci
  | .move _ _ _ => .complete (.move (field7to4 w) (field11to8 w) (field15to12 w))
  | .set _ _ _ => .maskable (field7to4 w) (.set (field7to4 w) (field11to8 w))
  | .swap _ _ => .complete (.swap (field11to8 w) (field15to12 w))
  | .ret => .complete .ret
  | .terminate => .complete .terminate
  | .getc _ => .complete (.getc (field11to8 w))
  | .putc _ => .complete (.putc (field11to8 w))

/-! #### By group -/

theorem readsAs_memory {w sel : Word} {build : Nibble → BitVec 4 → Instr} (h : w &&& 0x003F#16 = sel)
    (hop : opField sel = 0#4)
    (hform : ∀ w, nibbleField w 0x0030#16 4 = nibbleField sel 0x0030#16 4 →
      decodeMemory w = .complete (build (field11to8 w) (field15to12 w))) :
    ReadsAs w (.complete (build (field11to8 w) (field15to12 w))) := by
  have hopw : opField w = 0#4 := (nibbleField_of_select h (by decide) 0).trans hop
  have hgroup : decodeFirst w = .ok (decodeMemory w) := by rw [decodeFirst, hopw]; rfl
  exact ⟨by rw [hgroup, hform w (nibbleField_of_select h (by decide) 4)], by rw [instrLength, hopw]; rfl⟩

theorem readsAs_shift {w sel : Word} {build : Word → Instr} (h : w &&& 0x003F#16 = sel) (hop : opField sel = 2#4)
    (hform : ∀ w, immBit w = immBit sel → flagField w 0x0020#16 5 = flagField sel 0x0020#16 5 →
      decodeShift w = .complete (build w)) : ReadsAs w (.complete (build w)) := by
  have hopw : opField w = 2#4 := (nibbleField_of_select h (by decide) 0).trans hop
  refine ⟨?_, instrLength_of_shift hopw⟩
  rw [decodeFirst_of_shift hopw, hform w (flagField_of_select h (by decide) 4) (flagField_of_select h (by decide) 5)]

section
variable {op style : Word} {regForm : RegIndex → RegIndex → Instr} {immForm : RegIndex → Nibble → Value → Instr} {w : Word}

theorem opField_of_select_alu {imm : Bool} (h : w &&& 0x00FF#16 = firstAlu op imm style 0#4 0#4) :
    opField w = op.setWidth 4 :=
  (nibbleField_of_select h (by decide) 0).trans (opField_firstAlu op style imm 0#4 0#4)

theorem styleField_of_select_alu {imm : Bool} (h : w &&& 0x00FF#16 = firstAlu op imm style 0#4 0#4) :
    styleField w = (style &&& 7#16).setWidth 4 :=
  (nibbleField_of_select h (by decide) 5).trans (styleField_firstAlu op style imm 0#4 0#4)

theorem immBit_of_select_alu {imm : Bool} (h : w &&& 0x00FF#16 = firstAlu op imm style 0#4 0#4) : immBit w = imm :=
  (flagField_of_select h (by decide) 4).trans (immBit_firstAlu op style imm 0#4 0#4)

theorem StyleSelects.readsAs_reg (hs : StyleSelects op style regForm immForm)
    (h : w &&& 0x00FF#16 = firstAlu op false style 0#4 0#4) :
    ReadsAs w (.complete (regForm (field11to8 w) (field15to12 w))) := by
  have hop := opField_of_select_alu h
  have hst := styleField_of_select_alu h
  have himm := immBit_of_select_alu h
  constructor
  · rw [hs.decodes w hop hst, regOrImm, himm]; rfl
  · rw [hs.length w hop hst, himm]; rfl

theorem StyleSelects.readsAs_imm (hs : StyleSelects op style regForm immForm)
    (h : w &&& 0x00FF#16 = firstAlu op true style 0#4 0#4) :
    ReadsAs w (.maskable (field15to12 w) (immForm (field11to8 w) (field15to12 w))) := by
  have hop := opField_of_select_alu h
  have hst := styleField_of_select_alu h
  have himm := immBit_of_select_alu h
  constructor
  · rw [hs.decodes w hop hst, regOrImm, himm]; rfl
  · rw [hs.length w hop hst, himm]; rfl

end

theorem styleSelects_div : StyleSelects 1#16 3#16 .div .divi :=
  styleSelects_arithmetic (by decide) fun _ h => by rw [decodeArithmetic, h]; rfl

theorem styleSelects_rem : StyleSelects 1#16 4#16 .rem .remi :=
  styleSelects_arithmetic (by decide) fun _ h => by rw [decodeArithmetic, h]; rfl

/-- R87: the flag moves are one word whatever their immediate bit. -/
theorem readsAs_flagMove {w sel : Word} {build : RegIndex → Instr} (h : w &&& 0x00EF#16 = sel) (hop : opField sel = 4#4)
    (hstyle : ¬ styleField sel ≤ 5#4)
    (hform : ∀ w, styleField w = styleField sel → decodeCompare w = .complete (build (field11to8 w))) :
    ReadsAs w (.complete (build (field11to8 w))) := by
  have hopw : opField w = 4#4 := (nibbleField_of_select h (by decide) 0).trans hop
  have hst : styleField w = styleField sel := nibbleField_of_select h (by decide) 5
  have hgroup : decodeFirst w = .ok (decodeCompare w) := by rw [decodeFirst, hopw]; rfl
  have hlen : instrLength w =
      if immBit w && decide (styleField w ≤ 5#4) then 1 + maskableWords (field15to12 w) else 1 := by
    rw [instrLength, hopw]; rfl
  exact ⟨by rw [hgroup, hform w hst], by rw [hlen, hst, decide_eq_false hstyle, Bool.and_false]; rfl⟩

section
variable {call cond : Bool} {regForm : RegIndex → Instr} {immForm : Value → Instr} {w : Word}

theorem branchWord_of_select {imm : Bool} (h : w &&& 0x007F#16 = firstBranch imm call cond 0#4) :
    BranchWord imm call cond w where
  op := (nibbleField_of_select h (by decide) 0).trans (opField_firstBranch imm call cond 0#4)
  imm := (flagField_of_select h (by decide) 4).trans (immBit_firstBranch imm call cond 0#4)
  call := (flagField_of_select h (by decide) 5).trans (callBit_firstBranch imm call cond 0#4)
  cond := (flagField_of_select h (by decide) 6).trans (condBit_firstBranch imm call cond 0#4)

theorem BranchSelects.readsAs_reg (hs : BranchSelects call cond regForm immForm)
    (h : w &&& 0x007F#16 = firstBranch false call cond 0#4) : ReadsAs w (.complete (regForm (field11to8 w))) := by
  have hw := branchWord_of_select h
  constructor
  · rw [decodeFirst_of_branch hw.op, hs _ w hw, branchForm, hw.imm]; rfl
  · rw [instrLength_of_branch hw.op, hw.imm]; rfl

theorem BranchSelects.readsAs_imm (hs : BranchSelects call cond regForm immForm)
    (h : w &&& 0x007F#16 = firstBranch true call cond 0#4) : ReadsAs w (.full immForm) := by
  have hw := branchWord_of_select h
  constructor
  · rw [decodeFirst_of_branch hw.op, hs _ w hw, branchForm, hw.imm]; rfl
  · rw [instrLength_of_branch hw.op, hw.imm]; rfl

end

theorem branchSelects_call : BranchSelects true false .call .calli := fun _ w h => by rw [decodeBranch, h.call, h.cond]

theorem branchSelects_callc : BranchSelects true true .callc .callci := fun _ w h => by rw [decodeBranch, h.call, h.cond]

/-- Move, Set and Swap are selected by the opcode alone. -/
theorem readsAs_nibbles {w sel : Word} {op : BitVec 4} {form : Word → FirstWord} (h : w &&& 0x000F#16 = sel)
    (hop : opField sel = op) (hform : ∀ w, opField w = op → ReadsAs w (form w)) : ReadsAs w (form w) :=
  hform w ((nibbleField_of_select h (by decide) 0).trans hop)

theorem readsAs_misc {w sel : Word} {build : Word → Instr} (h : w &&& 0x00FF#16 = sel) (hop : opField sel = 9#4)
    (hform : ∀ w, field7to4 w = field7to4 sel → decodeMisc w = .ok (.complete (build w))) :
    ReadsAs w (.complete (build w)) := by
  have hopw : opField w = 9#4 := (nibbleField_of_select h (by decide) 0).trans hop
  have hgroup : decodeFirst w = decodeMisc w := by rw [decodeFirst, hopw]; rfl
  exact ⟨by rw [hgroup, hform w (nibbleField_of_select h (by decide) 4)], by rw [instrLength, hopw]; rfl⟩

/-- R93: a word that selects the row of `i` reads as that row's form. -/
theorem readsAs_rowForm (i : Instr) {w : Word} (h : w &&& i.row.1 = i.row.2) : ReadsAs w (rowForm i w) := by
  cases i <;> dsimp only [Instr.row, rowForm] at h ⊢
  case load => exact readsAs_memory h (by decide) fun _ htype => by rw [decodeMemory, htype]; rfl
  case store => exact readsAs_memory h (by decide) fun _ htype => by rw [decodeMemory, htype]; rfl
  case push => exact readsAs_memory h (by decide) fun _ htype => by rw [decodeMemory, htype]; rfl
  case pop => exact readsAs_memory h (by decide) fun _ htype => by rw [decodeMemory, htype]; rfl
  case add => exact styleSelects_add.readsAs_reg (h.trans (by decide))
  case addi => exact styleSelects_add.readsAs_imm (h.trans (by decide))
  case sub => exact styleSelects_sub.readsAs_reg (h.trans (by decide))
  case subi => exact styleSelects_sub.readsAs_imm (h.trans (by decide))
  case mul => exact styleSelects_mul.readsAs_reg (h.trans (by decide))
  case muli => exact styleSelects_mul.readsAs_imm (h.trans (by decide))
  case div => exact styleSelects_div.readsAs_reg (h.trans (by decide))
  case divi => exact styleSelects_div.readsAs_imm (h.trans (by decide))
  case rem => exact styleSelects_rem.readsAs_reg (h.trans (by decide))
  case remi => exact styleSelects_rem.readsAs_imm (h.trans (by decide))
  case min => exact styleSelects_min.readsAs_reg (h.trans (by decide))
  case mini => exact styleSelects_min.readsAs_imm (h.trans (by decide))
  case max => exact styleSelects_max.readsAs_reg (h.trans (by decide))
  case maxi => exact styleSelects_max.readsAs_imm (h.trans (by decide))
  case shr => exact readsAs_shift h (by decide) fun _ himm hleft => by rw [decodeShift, himm, hleft]; rfl
  case shl => exact readsAs_shift h (by decide) fun _ himm hleft => by rw [decodeShift, himm, hleft]; rfl
  case shri => exact readsAs_shift h (by decide) fun _ himm hleft => by rw [decodeShift, himm, hleft]; rfl
  case shli => exact readsAs_shift h (by decide) fun _ himm hleft => by rw [decodeShift, himm, hleft]; rfl
  case and => exact styleSelects_and.readsAs_reg (h.trans (by decide))
  case andi => exact styleSelects_and.readsAs_imm (h.trans (by decide))
  case or => exact styleSelects_or.readsAs_reg (h.trans (by decide))
  case ori => exact styleSelects_or.readsAs_imm (h.trans (by decide))
  case xor => exact styleSelects_xor.readsAs_reg (h.trans (by decide))
  case xori => exact styleSelects_xor.readsAs_imm (h.trans (by decide))
  case nand => exact styleSelects_nand.readsAs_reg (h.trans (by decide))
  case nandi => exact styleSelects_nand.readsAs_imm (h.trans (by decide))
  case not => exact styleSelects_not.readsAs_reg (h.trans (by decide))
  case noti => exact styleSelects_not.readsAs_imm (h.trans (by decide))
  case eq => exact styleSelects_eq.readsAs_reg (h.trans (by decide))
  case eqi => exact styleSelects_eq.readsAs_imm (h.trans (by decide))
  case ne => exact styleSelects_ne.readsAs_reg (h.trans (by decide))
  case nei => exact styleSelects_ne.readsAs_imm (h.trans (by decide))
  case lt => exact styleSelects_lt.readsAs_reg (h.trans (by decide))
  case lti => exact styleSelects_lt.readsAs_imm (h.trans (by decide))
  case gt => exact styleSelects_gt.readsAs_reg (h.trans (by decide))
  case gti => exact styleSelects_gt.readsAs_imm (h.trans (by decide))
  case le => exact styleSelects_le.readsAs_reg (h.trans (by decide))
  case lei => exact styleSelects_le.readsAs_imm (h.trans (by decide))
  case ge => exact styleSelects_ge.readsAs_reg (h.trans (by decide))
  case gei => exact styleSelects_ge.readsAs_imm (h.trans (by decide))
  case mtc => exact readsAs_flagMove h (by decide) (by decide) fun _ hst => by rw [decodeCompare, hst]; rfl
  case mfc => exact readsAs_flagMove h (by decide) (by decide) fun _ hst => by rw [decodeCompare, hst]; rfl
  case jmp => exact branchSelects_jmp.readsAs_reg (h.trans (by decide))
  case jmpi => exact branchSelects_jmp.readsAs_imm (h.trans (by decide))
  case call => exact branchSelects_call.readsAs_reg (h.trans (by decide))
  case calli => exact branchSelects_call.readsAs_imm (h.trans (by decide))
  case jmpc => exact branchSelects_jmpc.readsAs_reg (h.trans (by decide))
  case jmpci => exact branchSelects_jmpc.readsAs_imm (h.trans (by decide))
  case callc => exact branchSelects_callc.readsAs_reg (h.trans (by decide))
  case callci => exact branchSelects_callc.readsAs_imm (h.trans (by decide))
  case move => exact readsAs_nibbles (op := 6#4) h (by decide) fun _ hop =>
    ⟨by rw [decodeFirst, hop]; rfl, by rw [instrLength, hop]; rfl⟩
  case set => exact readsAs_nibbles (op := 7#4) h (by decide) fun _ hop =>
    ⟨by rw [decodeFirst, hop]; rfl, by rw [instrLength, hop]; rfl⟩
  case swap => exact readsAs_nibbles (op := 8#4) h (by decide) fun _ hop =>
    ⟨decodeFirst_of_swap hop, instrLength_of_swap hop⟩
  case ret => exact readsAs_misc h (by decide) fun _ hst => by rw [decodeMisc, hst]; rfl
  case terminate => exact readsAs_misc h (by decide) fun _ hst => by rw [decodeMisc, hst]; rfl
  case getc => exact readsAs_misc h (by decide) fun _ hst => by rw [decodeMisc, hst]; rfl
  case putc => exact readsAs_misc h (by decide) fun _ hst => by rw [decodeMisc, hst]; rfl

end Sys2Proof.Machine
end

section
/-! The decoder as a whole (spec/30_encoding.md R93 to R107): every word selects a row of the opcode map or is illegal, and
from that the statements about decoding, the length and the encoder. -/

namespace Sys2Proof.Machine

/-! ### Every word selects a row or is illegal -/

/-- The word selects some row of the opcode map (R93). -/
def SelectsRow (w : Word) : Prop := ∃ i : Instr, w &&& i.row.1 = i.row.2

/-- R100: the same words as `UndefinedStyle`, by the decoder's fields. -/
def StyleFieldsUndefined (w : Word) : Prop :=
  (opField w = 1#4 ∧ styleField w = 7#4) ∨ (opField w = 3#4 ∧ 5#4 ≤ styleField w) ∨ (opField w = 9#4 ∧ 4#4 ≤ field7to4 w)

section
variable {w : Word}

theorem and_of_opField {v : BitVec 4} (hop : opField w = v) : w &&& 0x000F#16 = v.setWidth 16 :=
  (and_of_nibbleField hop (by decide)).trans (BitVec.shiftLeft_zero _)

theorem and_of_immBit {b : Bool} (himm : immBit w = b) : w &&& 0x0010#16 = if b then 0x0010#16 else 0#16 :=
  and_of_flagField (k := 4) himm (by decide)

theorem and_of_flag5 {b : Bool} (h : flagField w 0x0020#16 5 = b) : w &&& 0x0020#16 = if b then 0x0020#16 else 0#16 :=
  and_of_flagField (k := 5) h (by decide)

theorem and_of_flag6 {b : Bool} (h : flagField w 0x0040#16 6 = b) : w &&& 0x0040#16 = if b then 0x0040#16 else 0#16 :=
  and_of_flagField (k := 6) h (by decide)

theorem and_of_styleField {v : BitVec 4} (hst : styleField w = v) : w &&& 0x00E0#16 = v.setWidth 16 <<< 5 :=
  and_of_nibbleField hst (by decide)

theorem and_of_typeField {v : BitVec 4} (h : nibbleField w 0x0030#16 4 = v) : w &&& 0x0030#16 = v.setWidth 16 <<< 4 :=
  and_of_nibbleField h (by decide)

theorem and_of_field7to4 {v : BitVec 4} (h : field7to4 w = v) : w &&& 0x00F0#16 = v.setWidth 16 <<< 4 :=
  and_of_nibbleField h (by decide)

theorem styleField_lt (w : Word) : styleField w < 8#4 := by
  have h3 : (styleField w).getLsbD 3 = false := by simp [styleField, nibbleField, decodeBits]
  revert h3
  generalize styleField w = c
  revert c
  decide

theorem typeField_lt (w : Word) : nibbleField w 0x0030#16 4 < 4#4 := by
  have h2 : (nibbleField w 0x0030#16 4).getLsbD 2 = false := by simp [nibbleField, decodeBits]
  have h3 : (nibbleField w 0x0030#16 4).getLsbD 3 = false := by simp [nibbleField, decodeBits]
  revert h2 h3
  generalize nibbleField w 0x0030#16 4 = c
  revert c
  decide

theorem selectsRow_memory (hop : opField w = 0#4) : SelectsRow w := by
  have hall : ∀ c : BitVec 4, c < 4#4 → c = 0#4 ∨ c = 1#4 ∨ c = 2#4 ∨ c = 3#4 := by decide
  rcases hall _ (typeField_lt w) with h | h | h | h
  · exact ⟨.load 0#4 0#4, and_or_of_and (and_of_opField hop) (and_of_typeField h)⟩
  · exact ⟨.store 0#4 0#4, and_or_of_and (and_of_opField hop) (and_of_typeField h)⟩
  · exact ⟨.push 0#4 0#4, and_or_of_and (and_of_opField hop) (and_of_typeField h)⟩
  · exact ⟨.pop 0#4 0#4, and_or_of_and (and_of_opField hop) (and_of_typeField h)⟩

/-- A style's register row or its immediate row, by the immediate bit. -/
theorem selectsRow_alu {regForm immForm : Instr} {op style : BitVec 4} (hop : opField w = op) (hst : styleField w = style)
    (hreg : regForm.row = (0x00FF#16, op.setWidth 16 ||| style.setWidth 16 <<< 5))
    (himm : immForm.row = (0x00FF#16, op.setWidth 16 ||| 0x0010#16 ||| style.setWidth 16 <<< 5)) : SelectsRow w := by
  cases hbit : immBit w with
  | false =>
    refine ⟨regForm, ?_⟩
    rw [hreg]
    simpa using and_or_of_and (and_or_of_and (and_of_opField hop) (and_of_immBit hbit)) (and_of_styleField hst)
  | true =>
    refine ⟨immForm, ?_⟩
    rw [himm]
    exact and_or_of_and (and_or_of_and (and_of_opField hop) (and_of_immBit hbit)) (and_of_styleField hst)

theorem style_cases : ∀ c : BitVec 4, c < 8#4 →
    c = 0#4 ∨ c = 1#4 ∨ c = 2#4 ∨ c = 3#4 ∨ c = 4#4 ∨ c = 5#4 ∨ c = 6#4 ∨ c = 7#4 := by decide

theorem selectsRow_arithmetic (hop : opField w = 1#4) (hst : styleField w ≠ 7#4) : SelectsRow w := by
  rcases style_cases _ (styleField_lt w) with h | h | h | h | h | h | h | h
  · exact selectsRow_alu (regForm := .add 0#4 0#4) (immForm := .addi 0#4 0#4 0#32) hop h rfl rfl
  · exact selectsRow_alu (regForm := .sub 0#4 0#4) (immForm := .subi 0#4 0#4 0#32) hop h rfl rfl
  · exact selectsRow_alu (regForm := .mul 0#4 0#4) (immForm := .muli 0#4 0#4 0#32) hop h rfl rfl
  · exact selectsRow_alu (regForm := .div 0#4 0#4) (immForm := .divi 0#4 0#4 0#32) hop h rfl rfl
  · exact selectsRow_alu (regForm := .rem 0#4 0#4) (immForm := .remi 0#4 0#4 0#32) hop h rfl rfl
  · exact selectsRow_alu (regForm := .min 0#4 0#4) (immForm := .mini 0#4 0#4 0#32) hop h rfl rfl
  · exact selectsRow_alu (regForm := .max 0#4 0#4) (immForm := .maxi 0#4 0#4 0#32) hop h rfl rfl
  · exact absurd h hst

theorem selectsRow_logical (hop : opField w = 3#4) (hst : ¬ 5#4 ≤ styleField w) : SelectsRow w := by
  have hall : ∀ c : BitVec 4, ¬ 5#4 ≤ c → c = 0#4 ∨ c = 1#4 ∨ c = 2#4 ∨ c = 3#4 ∨ c = 4#4 := by decide
  rcases hall _ hst with h | h | h | h | h
  · exact selectsRow_alu (regForm := .and 0#4 0#4) (immForm := .andi 0#4 0#4 0#32) hop h rfl rfl
  · exact selectsRow_alu (regForm := .or 0#4 0#4) (immForm := .ori 0#4 0#4 0#32) hop h rfl rfl
  · exact selectsRow_alu (regForm := .xor 0#4 0#4) (immForm := .xori 0#4 0#4 0#32) hop h rfl rfl
  · exact selectsRow_alu (regForm := .nand 0#4 0#4) (immForm := .nandi 0#4 0#4 0#32) hop h rfl rfl
  · exact selectsRow_alu (regForm := .not 0#4 0#4) (immForm := .noti 0#4 0#4 0#32) hop h rfl rfl

theorem selectsRow_compare (hop : opField w = 4#4) : SelectsRow w := by
  rcases style_cases _ (styleField_lt w) with h | h | h | h | h | h | h | h
  · exact selectsRow_alu (regForm := .eq 0#4 0#4) (immForm := .eqi 0#4 0#4 0#32) hop h rfl rfl
  · exact selectsRow_alu (regForm := .ne 0#4 0#4) (immForm := .nei 0#4 0#4 0#32) hop h rfl rfl
  · exact selectsRow_alu (regForm := .lt 0#4 0#4) (immForm := .lti 0#4 0#4 0#32) hop h rfl rfl
  · exact selectsRow_alu (regForm := .gt 0#4 0#4) (immForm := .gti 0#4 0#4 0#32) hop h rfl rfl
  · exact selectsRow_alu (regForm := .le 0#4 0#4) (immForm := .lei 0#4 0#4 0#32) hop h rfl rfl
  · exact selectsRow_alu (regForm := .ge 0#4 0#4) (immForm := .gei 0#4 0#4 0#32) hop h rfl rfl
  · exact ⟨.mtc 0#4, and_or_of_and (and_of_opField hop) (and_of_styleField h)⟩
  · exact ⟨.mfc 0#4, and_or_of_and (and_of_opField hop) (and_of_styleField h)⟩

theorem and_of_shift {imm left : Bool} (hop : opField w = 2#4) (himm : immBit w = imm)
    (hleft : flagField w 0x0020#16 5 = left) :
    w &&& 0x003F#16 = 2#16 ||| (if imm then 0x0010#16 else 0#16) ||| (if left then 0x0020#16 else 0#16) :=
  and_or_of_and (and_or_of_and (and_of_opField hop) (and_of_immBit himm)) (and_of_flag5 hleft)

theorem selectsRow_shift (hop : opField w = 2#4) : SelectsRow w := by
  cases himm : immBit w <;> cases hleft : flagField w 0x0020#16 5
  case false.false => exact ⟨.shr 0#4 0#4, and_of_shift hop himm hleft⟩
  case false.true => exact ⟨.shl 0#4 0#4, and_of_shift hop himm hleft⟩
  case true.false => exact ⟨.shri 0#4 0#5, and_of_shift hop himm hleft⟩
  case true.true => exact ⟨.shli 0#4 0#5, and_of_shift hop himm hleft⟩

theorem and_of_branch {imm call cond : Bool} (hop : opField w = 5#4) (himm : immBit w = imm)
    (hcall : flagField w 0x0020#16 5 = call) (hcond : flagField w 0x0040#16 6 = cond) :
    w &&& 0x007F#16 = 5#16 ||| (if imm then 0x0010#16 else 0#16) ||| (if call then 0x0020#16 else 0#16) |||
      (if cond then 0x0040#16 else 0#16) :=
  and_or_of_and (and_or_of_and (and_or_of_and (and_of_opField hop) (and_of_immBit himm)) (and_of_flag5 hcall))
    (and_of_flag6 hcond)

theorem selectsRow_branch (hop : opField w = 5#4) : SelectsRow w := by
  cases himm : immBit w <;> cases hcall : flagField w 0x0020#16 5 <;> cases hcond : flagField w 0x0040#16 6
  case false.false.false => exact ⟨.jmp 0#4, and_of_branch hop himm hcall hcond⟩
  case false.false.true => exact ⟨.jmpc 0#4, and_of_branch hop himm hcall hcond⟩
  case false.true.false => exact ⟨.call 0#4, and_of_branch hop himm hcall hcond⟩
  case false.true.true => exact ⟨.callc 0#4, and_of_branch hop himm hcall hcond⟩
  case true.false.false => exact ⟨.jmpi 0#32, and_of_branch hop himm hcall hcond⟩
  case true.false.true => exact ⟨.jmpci 0#32, and_of_branch hop himm hcall hcond⟩
  case true.true.false => exact ⟨.calli 0#32, and_of_branch hop himm hcall hcond⟩
  case true.true.true => exact ⟨.callci 0#32, and_of_branch hop himm hcall hcond⟩

theorem selectsRow_misc (hop : opField w = 9#4) (hst : ¬ 4#4 ≤ field7to4 w) : SelectsRow w := by
  have hall : ∀ c : BitVec 4, ¬ 4#4 ≤ c → c = 0#4 ∨ c = 1#4 ∨ c = 2#4 ∨ c = 3#4 := by decide
  rcases hall _ hst with h | h | h | h
  · exact ⟨.ret, and_or_of_and (and_of_opField hop) (and_of_field7to4 h)⟩
  · exact ⟨.terminate, and_or_of_and (and_of_opField hop) (and_of_field7to4 h)⟩
  · exact ⟨.getc 0#4, and_or_of_and (and_of_opField hop) (and_of_field7to4 h)⟩
  · exact ⟨.putc 0#4, and_or_of_and (and_of_opField hop) (and_of_field7to4 h)⟩

/-- R93, R99, R100: every word selects a row, has an undefined opcode, or an undefined style. -/
theorem selectsRow_or_illegal (w : Word) : SelectsRow w ∨ 10#4 ≤ opField w ∨ StyleFieldsUndefined w := by
  have hall : ∀ c : BitVec 4, c = 0#4 ∨ c = 1#4 ∨ c = 2#4 ∨ c = 3#4 ∨ c = 4#4 ∨ c = 5#4 ∨ c = 6#4 ∨ c = 7#4 ∨ c = 8#4 ∨
    c = 9#4 ∨ 10#4 ≤ c := by decide
  rcases hall (opField w) with h | h | h | h | h | h | h | h | h | h | h
  · exact .inl (selectsRow_memory h)
  · by_cases hst : styleField w = 7#4
    · exact .inr (.inr (.inl ⟨h, hst⟩))
    · exact .inl (selectsRow_arithmetic h hst)
  · exact .inl (selectsRow_shift h)
  · by_cases hst : 5#4 ≤ styleField w
    · exact .inr (.inr (.inr (.inl ⟨h, hst⟩)))
    · exact .inl (selectsRow_logical h hst)
  · exact .inl (selectsRow_compare h)
  · exact .inl (selectsRow_branch h)
  · exact .inl ⟨.move 0#4 0#4 0#4, and_of_opField h⟩
  · exact .inl ⟨.set 0#4 0#4 0#32, and_of_opField h⟩
  · exact .inl ⟨.swap 0#4 0#4, and_of_opField h⟩
  · by_cases hst : 4#4 ≤ field7to4 w
    · exact .inr (.inr (.inr (.inr ⟨h, hst⟩)))
    · exact .inl (selectsRow_misc h hst)
  · exact .inr (.inl h)

/-! ### Illegal words -/

/-- R99: an undefined opcode, refused by that name; one word. -/
theorem illegalOpcode_of_opField (h : 10#4 ≤ opField w) :
    decodeFirst w = .error (.illegalOpcode w) ∧ instrLength w = 1 := by
  have hall : ∀ c : BitVec 4, 10#4 ≤ c → c = 10#4 ∨ c = 11#4 ∨ c = 12#4 ∨ c = 13#4 ∨ c = 14#4 ∨ c = 15#4 := by decide
  rcases hall _ h with h | h | h | h | h | h <;> exact ⟨by rw [decodeFirst, h]; rfl, by rw [instrLength, h]; rfl⟩

/-- R100: an undefined style, refused by that name; one word whatever the immediate bit. -/
theorem illegalStyle_of_fields (h : StyleFieldsUndefined w) :
    decodeFirst w = .error (.illegalStyle w) ∧ instrLength w = 1 := by
  rcases h with ⟨hop, hst⟩ | ⟨hop, hst⟩ | ⟨hop, hst⟩
  · have hlen : instrLength w =
        if immBit w && decide (styleField w ≤ 6#4) then 1 + maskableWords (field15to12 w) else 1 := by
      rw [instrLength, hop]; rfl
    have hgroup : decodeFirst w = decodeArithmetic w := by rw [decodeFirst, hop]; rfl
    exact ⟨by rw [hgroup, decodeArithmetic, hst]; rfl, by simp [hlen, hst]⟩
  · have hlen : instrLength w =
        if immBit w && decide (styleField w ≤ 4#4) then 1 + maskableWords (field15to12 w) else 1 := by
      rw [instrLength, hop]; rfl
    have hgroup : decodeFirst w = decodeLogical w := by rw [decodeFirst, hop]; rfl
    have hall : ∀ c : BitVec 4, c < 8#4 → 5#4 ≤ c → c = 5#4 ∨ c = 6#4 ∨ c = 7#4 := by decide
    rcases hall _ (styleField_lt w) hst with h | h | h <;>
      exact ⟨by rw [hgroup, decodeLogical, h]; rfl, by simp [hlen, h]⟩
  · have hgroup : decodeFirst w = decodeMisc w := by rw [decodeFirst, hop]; rfl
    refine ⟨?_, by rw [instrLength, hop]; rfl⟩
    have hmisc : ∀ c : BitVec 4, 4#4 ≤ c → c ≠ 0#4 ∧ c ≠ 1#4 ∧ c ≠ 2#4 ∧ c ≠ 3#4 := by decide
    obtain ⟨h0, h1, h2, h3⟩ := hmisc _ hst
    rw [hgroup, decodeMisc]
    split
    case h_1 h => exact absurd h h0
    case h_2 h => exact absurd h h1
    case h_3 h => exact absurd h h2
    case h_4 h => exact absurd h h3
    case h_5 => rfl

/-- What the decoder answers to a first word, whatever follows it. -/
theorem decode_of_ok {form : FirstWord} (h : decodeFirst w = .ok form) (w1 w2 : Word) :
    decode w w1 w2 = .ok (form.finish w1 w2) := by rw [decode, h]

theorem decode_of_error {e : IllegalWord} (h : decodeFirst w = .error e) (w1 w2 : Word) : decode w w1 w2 = .error e := by
  rw [decode, h]

theorem decode_of_select {i : Instr} (h : w &&& i.row.1 = i.row.2) (w1 w2 : Word) :
    decode w w1 w2 = .ok ((rowForm i w).finish w1 w2) := decode_of_ok (readsAs_rowForm i h).1 w1 w2

/-- R98: an accepted word selects a row, and the instruction is that row's. -/
theorem select_of_decode {w1 w2 : Word} {i : Instr} (h : decode w w1 w2 = .ok i) :
    ∃ j : Instr, w &&& j.row.1 = j.row.2 ∧ i = (rowForm j w).finish w1 w2 := by
  rcases selectsRow_or_illegal w with ⟨j, hj⟩ | hop | hst
  · exact ⟨j, hj, Except.ok.inj (h.symm.trans (decode_of_select hj w1 w2))⟩
  · exact nomatch h.symm.trans (decode_of_error (illegalOpcode_of_opField hop).1 w1 w2)
  · exact nomatch h.symm.trans (decode_of_error (illegalStyle_of_fields hst).1 w1 w2)

/-! ### Well-formed instructions (R103) -/

/-- Only the forms with a maskable immediate have something to check: their immediate was masked as it was assembled. -/
theorem rowForm_wellFormed (i : Instr) (w w1 w2 : Word) : ((rowForm i w).finish w1 w2).wellFormed = true := by
  cases i with
  | addi _ _ _ | subi _ _ _ | muli _ _ _ | divi _ _ _ | remi _ _ _ | mini _ _ _
  | maxi _ _ _ | andi _ _ _ | ori _ _ _ | xori _ _ _ | nandi _ _ _ | noti _ _ _
  | eqi _ _ _ | nei _ _ _ | lti _ _ _ | gti _ _ _ | lei _ _ _ | gei _ _ _
  | set _ _ _ => exact immMasked_and _ _
  | _ => rfl

/-- Settles O4: an accepted word reads as the form of its row, and every row's form is well-formed. -/
theorem decodedIsWellFormed : Obligations.DecodedIsWellFormed := fun w0 w1 w2 i h => by
  obtain ⟨j, _, rfl⟩ := select_of_decode h
  exact rowForm_wellFormed j w0 w1 w2

/-! ### The opcode map (R93) -/

/-- The operands do not take part in the choice of the row. -/
theorem rowForm_row (i : Instr) (w w1 w2 : Word) : ((rowForm i w).finish w1 w2).row = i.row := by cases i <;> rfl

/-- Settles O5: a selected row is decoded (`decode_of_select`), and what is decoded was selected (`select_of_decode`). -/
theorem opcodeMapSelectsRow : Obligations.OpcodeMapSelectsRow := fun w0 w1 w2 j => by
  constructor
  · exact fun h => ⟨_, decode_of_select h w1 w2, rowForm_row j w0 w1 w2⟩
  · rintro ⟨i, hi, hrow⟩
    obtain ⟨j', hsel, rfl⟩ := select_of_decode hi
    rwa [← hrow, rowForm_row]

/-! ### Illegal first words (R99, R100) -/

theorem le_and_opcode_iff (w : Word) : 10#16 ≤ w &&& 0x000F#16 ↔ 10#4 ≤ opField w := by
  have hall : ∀ c : BitVec 4, 10#16 ≤ c.setWidth 16 ↔ 10#4 ≤ c := by decide
  rw [and_of_opField rfl]
  exact hall _

/-- A field read by shifting first, as the rule of undefined styles writes it. -/
theorem shiftRight5_and (w : Word) : (w >>> 5) &&& 7#16 = (styleField w).setWidth 16 := by
  apply BitVec.eq_of_getLsbD_eq
  intro i hi
  simp only [styleField, nibbleField, decodeBits]
  interval_cases i <;> simp

theorem shiftRight4_and (w : Word) : (w >>> 4) &&& 0x000F#16 = (field7to4 w).setWidth 16 := by
  apply BitVec.eq_of_getLsbD_eq
  intro i hi
  simp only [field7to4, nibbleField, decodeBits]
  interval_cases i <;> simp

theorem undefinedStyle_iff (w : Word) : UndefinedStyle w ↔ StyleFieldsUndefined w := by
  have hop : ∀ a : BitVec 4, (a.setWidth 16 = 1#16 ↔ a = 1#4) ∧ (a.setWidth 16 = 3#16 ↔ a = 3#4) ∧
      (a.setWidth 16 = 9#16 ↔ a = 9#4) := by decide
  have hst : ∀ a : BitVec 4, (a.setWidth 16 = 7#16 ↔ a = 7#4) ∧ (5#16 ≤ a.setWidth 16 ↔ 5#4 ≤ a) ∧
      (4#16 ≤ a.setWidth 16 ↔ 4#4 ≤ a) := by decide
  obtain ⟨h1, h3, h9⟩ := hop (opField w)
  rw [UndefinedStyle, shiftRight5_and, shiftRight4_and, and_of_opField rfl, h1, h3, h9, (hst _).1, (hst _).2.1, (hst _).2.2,
    StyleFieldsUndefined]

/-- An undefined style belongs to a defined group. -/
theorem not_styleFieldsUndefined_of_opField (h : 10#4 ≤ opField w) : ¬ StyleFieldsUndefined w := by
  have hall : ∀ c : BitVec 4, 10#4 ≤ c → c ≠ 1#4 ∧ c ≠ 3#4 ∧ c ≠ 9#4 := by decide
  obtain ⟨h1, h3, h9⟩ := hall _ h
  simp [StyleFieldsUndefined, h1, h3, h9]

/-- Settles O6: of the three kinds of word (`selectsRow_or_illegal`) the two illegal ones are refused, each by its name. -/
theorem illegalFirstWords : Obligations.IllegalFirstWords := fun w0 w1 w2 => by
  rw [le_and_opcode_iff, undefinedStyle_iff]
  rcases selectsRow_or_illegal w0 with ⟨j, hj⟩ | hop | hst
  · have hok := decode_of_select hj w1 w2
    have hnop : ¬ 10#4 ≤ opField w0 := fun h =>
      nomatch (readsAs_rowForm j hj).1.symm.trans (illegalOpcode_of_opField h).1
    have hnst : ¬ StyleFieldsUndefined w0 := fun h =>
      nomatch (readsAs_rowForm j hj).1.symm.trans (illegalStyle_of_fields h).1
    simp [hok, hnop, hnst]
  · simp [decode_of_error (illegalOpcode_of_opField hop).1 w1 w2, hop, not_styleFieldsUndefined_of_opField hop]
  · have hnop : ¬ 10#4 ≤ opField w0 := fun h => not_styleFieldsUndefined_of_opField h hst
    simp [decode_of_error (illegalStyle_of_fields hst).1 w1 w2, hnop, hst]

/-! ### The length (R97) -/

/-- Settles O7: the length is part of what a row's words read as, and 1 for both kinds of illegal word. -/
theorem lengthFromFirstWord : Obligations.LengthFromFirstWord := fun w => by
  rcases selectsRow_or_illegal w with ⟨j, hj⟩ | hop | hst
  · obtain ⟨hdec, hlen⟩ := readsAs_rowForm j hj
    exact ⟨fun first h => by rw [hlen, Except.ok.inj (hdec.symm.trans h)], fun e h => nomatch hdec.symm.trans h⟩
  · obtain ⟨hdec, hlen⟩ := illegalOpcode_of_opField hop
    exact ⟨fun first h => (nomatch hdec.symm.trans h), fun _ _ => hlen⟩
  · obtain ⟨hdec, hlen⟩ := illegalStyle_of_fields hst
    exact ⟨fun first h => (nomatch hdec.symm.trans h), fun _ _ => hlen⟩

/-! ### Decoding what the encoder builds (R107) -/

theorem decodeBytes_one {w : Word} {i : Instr} (h : decodeFirst w = .ok (.complete i)) (rest : List Byte) :
    decodeBytes (bytesOfWords [w] ++ rest) = .ok (i, rest) := by
  simp [bytesOfWords, decodeBytes, h, FirstWord.extraWords, FirstWord.finish]

/-- R94: in each of the four selections of halves the words sent are the ones the form asks for, and the halves left out are
the ones the mask clears. -/
theorem decodeBytes_imm {w : Word} {m : Nibble} {build : Value → Instr} (h : decodeFirst w = .ok (.maskable m build))
    {v : Value} (hv : immMasked m v = true) (rest : List Byte) :
    decodeBytes (bytesOfWords (withImm w m v) ++ rest) = .ok (build v, rest) := by
  have himm := congrArg build (maskedImm_halves hv)
  cases hl : lowsel m <;> cases hu : upsel m <;>
    simpa [bytesOfWords, withImm, immWords, decodeBytes, h, FirstWord.extraWords, maskableWords, FirstWord.finish, maskableImm,
      hl, hu] using himm

theorem decodeBytes_target {w : Word} {build : Value → Instr} (h : decodeFirst w = .ok (.full build)) (a : Value)
    (rest : List Byte) : decodeBytes (bytesOfWords (withTarget w a) ++ rest) = .ok (build a, rest) := by
  simp [bytesOfWords, withTarget, decodeBytes, h, FirstWord.extraWords, FirstWord.finish]

/-- R107 for one instruction: its encoding, whatever follows, decodes to it. -/
def RoundTrips (i : Instr) : Prop := ∀ rest, decodeBytes (bytesOfWords (encode i) ++ rest) = .ok (i, rest)

section
variable {i : Instr} {w mask sel : Word}

/-- The first word selects the instruction's row, and the row's fields read the operands back. -/
theorem roundTrips_one (he : encode i = [w]) (hrow : i.row = (mask, sel)) (hsel : w &&& mask = sel)
    (hform : rowForm i w = .complete i) :
    RoundTrips i := fun rest => by
  rw [he]
  exact decodeBytes_one (hform ▸ (readsAs_rowForm i (by rwa [hrow])).1) rest

theorem roundTrips_imm {m : Nibble} {v : Value} {build : Value → Instr} (hv : immMasked m v = true)
    (he : encode (build v) = withImm w m v) (hrow : (build v).row = (mask, sel)) (hsel : w &&& mask = sel)
    (hform : rowForm (build v) w = .maskable m build) : RoundTrips (build v) := fun rest => by
  rw [he]
  exact decodeBytes_imm (hform ▸ (readsAs_rowForm (build v) (by rwa [hrow])).1) hv rest

theorem roundTrips_target {a : Value} {build : Value → Instr} (he : encode (build a) = withTarget w a)
    (hrow : (build a).row = (mask, sel)) (hsel : w &&& mask = sel) (hform : rowForm (build a) w = .full build) :
    RoundTrips (build a) := fun rest => by
  rw [he]
  exact decodeBytes_target (hform ▸ (readsAs_rowForm (build a) (by rwa [hrow])).1) a rest

end

/-- Settles O3: by the shape of the encoding; in each group the selecting bits do not depend on the operands. -/
theorem decodeOfEncodeIsSelf : Obligations.DecodeOfEncodeIsSelf := fun i rest hwf => by
  revert rest
  cases i with
  | load m n | store m n | push m n | pop m n =>
    exact roundTrips_one rfl rfl ((firstMemory_and _ _ _).trans (by decide)) (by simp [rowForm])
  | add d src | sub d src | mul d src | div d src | rem d src | min d src | max d src | and d src | or d src
  | xor d src | nand d src | not d src | eq d src | ne d src | lt d src | gt d src | le d src | ge d src =>
    exact roundTrips_one rfl rfl ((firstAlu_and _ _ _ _ _ _ (by decide)).trans (by decide)) (by simp [rowForm])
  | addi d m v | subi d m v | muli d m v | divi d m v | remi d m v | mini d m v | maxi d m v | andi d m v | ori d m v
  | xori d m v | nandi d m v | noti d m v | eqi d m v | nei d m v | lti d m v | gti d m v | lei d m v | gei d m v =>
    exact roundTrips_imm hwf rfl rfl ((firstAlu_and _ _ _ _ _ _ (by decide)).trans (by decide)) (by simp [rowForm])
  | shr d src | shl d src =>
    exact roundTrips_one rfl rfl ((firstShiftReg_and _ _ _).trans (by decide)) (by simp [rowForm])
  | shri d n | shli d n =>
    exact roundTrips_one rfl rfl ((firstShiftImm_and _ _ _).trans (by decide)) (by simp [rowForm])
  | mtc d | mfc d =>
    exact roundTrips_one rfl rfl ((firstAlu_and _ _ _ _ _ _ (by decide)).trans (by decide)) (by simp [rowForm])
  | jmp t | call t | jmpc t | callc t =>
    exact roundTrips_one rfl rfl ((firstBranch_and _ _ _ _).trans (by decide)) (by simp [rowForm])
  | jmpi a | calli a | jmpci a | callci a =>
    exact roundTrips_target rfl rfl ((firstBranch_and _ _ _ _).trans (by decide)) rfl
  | move m d src => exact roundTrips_one rfl rfl ((firstNibbles_and_op _ _ _ _).trans (by decide)) (by simp [rowForm])
  | set m d v =>
    exact roundTrips_imm hwf rfl rfl ((firstNibbles_and_op _ _ _ _).trans (by decide)) (by simp [rowForm])
  | swap d src => exact roundTrips_one rfl rfl ((firstNibbles_and_op _ _ _ _).trans (by decide)) (by simp [rowForm])
  | ret | terminate => exact roundTrips_one rfl rfl ((firstNibbles_and_style _ _ _ _).trans (by decide)) rfl
  | getc d | putc d =>
    exact roundTrips_one rfl rfl ((firstNibbles_and_style _ _ _ _).trans (by decide)) (by simp [rowForm])

/-- Settles O8: each of the eight words by evaluation. -/
theorem sampleWordsDecode : Obligations.SampleWordsDecode := ⟨rfl, rfl, rfl, rfl, rfl, rfl, rfl, rfl⟩

end

end Sys2Proof.Machine
end

section
/-! Putting frames together, moving a pointer through its mask and back, and merging a half into memory: the rules the memory
group, the calls and `return` share (spec/10_state.md R25 to R28, spec/20_memory.md R54). -/

namespace Sys2Proof.Machine

/-! ### Frames -/

theorem Frame.mono {regs regs' : List RegIndex} {words words' : List Nat} {s t : State} (h : Frame regs words s t)
    (hregs : regs ⊆ regs') (hwords : words ⊆ words') : Frame regs' words' s t :=
  { h with
    reg := fun i hi => h.reg i fun hmem => hi (hregs hmem)
    byte := fun a ha => h.byte a fun hmem => ha (hwords hmem) }

theorem Frame.trans {regs : List RegIndex} {words : List Nat} {s t u : State} (h : Frame regs words s t)
    (h' : Frame regs words t u) : Frame regs words s u where
  reg i hi := (h'.reg i hi).trans (h.reg i hi)
  byte a ha := (h'.byte a ha).trans (h.byte a ha)
  flag := h'.flag.trans h.flag
  keepExecuting := h'.keepExecuting.trans h.keepExecuting
  fault := h'.fault.trans h.fault
  params := h'.params.trans h.params
  input := h'.input.trans h.input
  output := h'.output.trans h.output

theorem frame_refl (regs : List RegIndex) (words : List Nat) (s : State) : Frame regs words s s :=
  (nothingChanged_refl s).mono (List.nil_subset _) (List.nil_subset _)

theorem frame_setReg {regs : List RegIndex} {i : RegIndex} (hi : i ∈ regs) (words : List Nat) (v : Value) (s : State) :
    Frame regs words s (s.setReg i v) :=
  (regWritten_setReg i v s).2.mono (by simpa using hi) (List.nil_subset _)

theorem frame_setMem (regs : List RegIndex) {words : List Nat} {s : State} {mem : Memory}
    (h : ∀ a, a / 2 ∉ words → mem.readByte a = s.mem.readByte a) : Frame regs words s (s.setMem mem) :=
  { frame_refl regs words s with
    reg := fun _ _ => rfl
    byte := h }

/-- R246: the record is written and the core halted, and nothing else. -/
theorem faultTaken_takeFault (f : FaultRecord) (s : State) : FaultTaken f s (s.takeFault f) :=
  nothingChanged_refl (s.takeFault f)

/-! ### Pointers -/

/-- R28: the mask commutes with the wraparound: moving a masked pointer is moving it and masking once. -/
theorem and_addrMask_add (p : Params) (x y : Value) : ((x &&& addrMask p) + y) &&& addrMask p = (x + y) &&& addrMask p := by
  have hdvd : p.capacity ∣ 2 ^ 32 := pow_dvd_pow 2 (by omega)
  apply BitVec.eq_of_toNat_eq
  simp only [toNat_and_addrMask, BitVec.toNat_add, Nat.mod_mod_of_dvd _ hdvd, Nat.mod_add_mod]

/-- A pointer decremented and incremented again is masked where it was. -/
theorem and_addrMask_sub_add (p : Params) (x : Value) :
    ((x - 1#32 &&& addrMask p) + 1#32) &&& addrMask p = x &&& addrMask p := by
  rw [and_addrMask_add, BitVec.sub_add_cancel]

/-- With at least two cells the next pointer down is another cell. -/
theorem and_addrMask_sub_one_ne (p : Params) (x : Value) (hx : x.toNat < p.capacity) :
    ((x - 1#32) &&& addrMask p).toNat ≠ x.toNat := by
  intro h
  have hback : (x + 1#32) &&& addrMask p = x &&& addrMask p := by
    rw [← and_addrMask_sub_add p x, BitVec.eq_of_toNat_eq h]
  have hdvd : p.capacity ∣ 2 ^ 32 := pow_dvd_pow 2 (by omega)
  have hmod : (x.toNat + 1) % p.capacity = x.toNat := by
    have hnat := congrArg BitVec.toNat hback
    rwa [toNat_and_addrMask, toNat_and_addrMask, BitVec.toNat_add, Nat.mod_mod_of_dvd _ hdvd, Nat.mod_eq_of_lt hx] at hnat
  have htwo := two_le_capacity p
  rcases Nat.lt_or_ge (x.toNat + 1) p.capacity with hlt | hge
  · rw [Nat.mod_eq_of_lt hlt] at hmod
    omega
  · rw [show x.toNat + 1 = p.capacity by omega, Nat.mod_self] at hmod
    omega

/-- One push moves the pointer when its half is selected. -/
def State.decrIf (s : State) (selected : Bool) (p : RegIndex) : State := if selected then s.decr p 1#32 else s

/-- One pop moves the pointer when its half is selected. -/
def State.incrIf (s : State) (selected : Bool) (p : RegIndex) : State := if selected then s.incr p 1#32 else s

section
variable (s : State) (b : Bool) (p : RegIndex)

@[simp] theorem State.decrIf_true : s.decrIf true p = s.decr p 1#32 := rfl
@[simp] theorem State.incrIf_true : s.incrIf true p = s.incr p 1#32 := rfl
@[simp] theorem State.decrIf_mem : (s.decrIf b p).mem = s.mem := by cases b <;> rfl
@[simp] theorem State.decrIf_params : (s.decrIf b p).params = s.params := by cases b <;> rfl
@[simp] theorem State.incrIf_mem : (s.incrIf b p).mem = s.mem := by cases b <;> rfl
@[simp] theorem State.incrIf_params : (s.incrIf b p).params = s.params := by cases b <;> rfl

theorem State.decrIf_setMem (mem : Memory) : (s.setMem mem).decrIf b p = (s.decrIf b p).setMem mem := by cases b <;> rfl

/-- A pointer inside memory stays there. -/
theorem State.incrIf_reg_lt {s : State} {p : RegIndex} (b : Bool) (hp : 12#4 ≤ p) (h : (s.reg p).toNat < s.params.capacity) :
    ((s.incrIf b p).reg p).toNat < s.params.capacity := by
  cases b
  case false => exact h
  case true => exact State.incr_reg_lt s p _ hp

theorem frame_decrIf {regs : List RegIndex} (hp : p ∈ regs) (words : List Nat) : Frame regs words s (s.decrIf b p) := by
  cases b
  case false => exact frame_refl regs words s
  case true => exact frame_setReg hp words _ s

theorem frame_incrIf {regs : List RegIndex} (hp : p ∈ regs) (words : List Nat) : Frame regs words s (s.incrIf b p) := by
  cases b
  case false => exact frame_refl regs words s
  case true => exact frame_setReg hp words _ s

theorem State.Masked.decrIf {s : State} (h : s.Masked) (b : Bool) (p : RegIndex) : (s.decrIf b p).Masked := by
  cases b
  case false => exact h
  case true => exact h.setReg p _

end

/-! ### Merging a half into memory -/

/-- R54: the selected half of a transfer to memory. -/
def Memory.mergeIf (mem : Memory) (selected : Bool) (a : Nat) (src mh : Word) : Memory :=
  if selected then mem.writeWord a (merge16 (mem.readWord a) src mh) else mem

section
variable (mem : Memory) (b : Bool) (a : Nat) (src mh : Word)

theorem Memory.readWord_mergeIf_same (hb : b = true) :
    (mem.mergeIf b a src mh).readWord a = merge16 (mem.readWord a) src mh := by
  rw [Memory.mergeIf, if_pos hb, Memory.readWord_writeWord_same]

theorem Memory.readWord_mergeIf_other {c : Nat} (h : b = true → c ≠ a) :
    (mem.mergeIf b a src mh).readWord c = mem.readWord c := by
  cases b
  case false => rfl
  case true => exact Memory.readWord_writeWord_other mem a c _ (h rfl)

theorem Memory.readByte_mergeIf_other {c : Nat} (h : c / 2 ∉ if b then [a] else []) :
    (mem.mergeIf b a src mh).readByte c = mem.readByte c := by
  cases b
  case false => rfl
  case true => exact Memory.readByte_writeWord_other mem a c _ (by simpa using h)

/-- Two selected halves leave the bytes outside their two words alone. -/
theorem Memory.readByte_mergeIf_mergeIf (b' : Bool) (a' : Nat) (src' mh' : Word) {c : Nat}
    (h : c / 2 ∉ (if b then [a] else []) ++ (if b' then [a'] else [])) :
    ((mem.mergeIf b a src mh).mergeIf b' a' src' mh').readByte c = mem.readByte c := by
  obtain ⟨h1, h2⟩ := not_or.mp (fun h' => h (List.mem_append.mpr h'))
  rw [Memory.readByte_mergeIf_other _ _ _ _ _ h2, Memory.readByte_mergeIf_other _ _ _ _ _ h1]

end

@[simp] theorem State.setMem_setMem (s : State) (mem mem' : Memory) : (s.setMem mem).setMem mem' = s.setMem mem' := rfl

theorem mergeWrite_mergeIf {a : Value} {src mh : Word} {s : State} (b : Bool) (h : b = true → a.toNat < s.params.capacity) :
    (if b then mergeWrite a src mh s else .done () s) = .done () (s.setMem (s.mem.mergeIf b a.toNat src mh)) := by
  cases b
  case false => rfl
  case true => exact mergeWrite_of_lt (h rfl)

/-- The same after an earlier write to memory. -/
theorem mergeWrite_setMem_mergeIf {a : Value} {src mh : Word} {s : State} (mem : Memory) (b : Bool)
    (h : b = true → a.toNat < s.params.capacity) :
    (if b then mergeWrite a src mh (s.setMem mem) else .done () (s.setMem mem)) =
      .done () (s.setMem (mem.mergeIf b a.toNat src mh)) := mergeWrite_mergeIf (s := s.setMem mem) b h

end Sys2Proof.Machine
end

section
/-! The memory group (spec/46_memory_ops.md R200 to R205): what each of its four instructions answers, its words with the
ignored bits set in any way, and the statements assembled from these. -/

namespace Sys2Proof.Machine

/-! ### Words of the rule (R82, R101) -/

section
variable (base x : Word) (a b : BitVec 4) {ignored mask : Word}

/-- A mask inside the low byte has no bit in common with a field of the high byte. -/
theorem and_eq_zero_of_high {y : Word} (hmask : mask &&& 0xFF00#16 = 0#16) (hy : 0xFF00#16 &&& y = y) :
    mask &&& y = 0#16 := by rw [← hy, ← BitVec.and_assoc, hmask, BitVec.zero_and]

theorem base_and_eq_zero {base y : Word} (hbase : base &&& mask = base) (hmask : mask &&& 0xFF00#16 = 0#16)
    (hy : 0xFF00#16 &&& y = y) : base &&& y = 0#16 := by
  rw [← hbase, BitVec.and_assoc, and_eq_zero_of_high hmask hy, BitVec.and_zero]

/-- The operands and the ignored bits lie outside the row's mask. -/
theorem ruleWord_and (hmask : mask &&& 0xFF00#16 = 0#16) (h : ignored &&& mask = 0#16) :
    (ruleWord base a b ||| (x &&& ignored)) &&& mask = base &&& mask := by
  have hhigh : ∀ y : Word, 0xFF00#16 &&& y = y → y &&& mask = 0#16 := fun y hy =>
    (BitVec.and_comm y mask).trans (and_eq_zero_of_high hmask hy)
  have ha : 0xFF00#16 &&& (a.setWidth 16 <<< 8) = a.setWidth 16 <<< 8 := by revert a; decide
  have hb : 0xFF00#16 &&& (b.setWidth 16 <<< 12) = b.setWidth 16 <<< 12 := by revert b; decide
  rw [and_or_ignored _ _ h, ruleWord, BitVec.and_or_distrib_right, BitVec.and_or_distrib_right, hhigh _ ha, hhigh _ hb,
    BitVec.or_zero, BitVec.or_zero]

theorem field11to8_ruleWord (hbase : base &&& 0x0F00#16 = 0#16) (h : ignored &&& 0x0F00#16 = 0#16) :
    field11to8 (ruleWord base a b ||| (x &&& ignored)) = a := by
  have hb : decodeBits (ruleWord base a b) 0x0F00#16 8 = decodeBits (ruleWord 0#16 a b) 0x0F00#16 8 := by
    rw [decodeBits, decodeBits]
    simp only [ruleWord, BitVec.and_or_distrib_right, hbase, BitVec.zero_and]
  have hall : ∀ a b : BitVec 4, (decodeBits (ruleWord 0#16 a b) 0x0F00#16 8).setWidth 4 = a := by decide
  rw [field11to8, nibbleField_or_ignored _ _ _ h, nibbleField, hb, hall]

theorem field15to12_ruleWord (hbase : base &&& 0xF000#16 = 0#16) (h : ignored &&& 0xF000#16 = 0#16) :
    field15to12 (ruleWord base a b ||| (x &&& ignored)) = b := by
  have hb : decodeBits (ruleWord base a b) 0xF000#16 12 = decodeBits (ruleWord 0#16 a b) 0xF000#16 12 := by
    rw [decodeBits, decodeBits]
    simp only [ruleWord, BitVec.and_or_distrib_right, hbase, BitVec.zero_and]
  have hall : ∀ a b : BitVec 4, (decodeBits (ruleWord 0#16 a b) 0xF000#16 12).setWidth 4 = b := by decide
  rw [field15to12, nibbleField_or_ignored _ _ _ h, nibbleField, hb, hall]

/-- A one-word instruction of the rule's word: it selects the row, and the row's fields read the operands back. -/
theorem oneWord_of_row {i : Instr} {w mask sel : Word} (hrow : i.row = (mask, sel)) (hsel : w &&& mask = sel)
    (hform : rowForm i w = .complete i) : OneWord w i :=
  (hform ▸ readsAs_rowForm i (by rwa [hrow]) : ReadsAs w (.complete i)).oneWord

end

/-- R83: bits 7:6 of a word of the group are ignored. -/
theorem oneWord_memory {base : Word} {build : Nibble → BitVec 4 → Instr} (hrow : ∀ m n, (build m n).row = (0x003F#16, base))
    (hform : ∀ m n w, rowForm (build m n) w = .complete (build (field11to8 w) (field15to12 w)))
    (hbase : base &&& 0x003F#16 = base) (m : Nibble) (n : BitVec 4) (x : Word) :
    OneWord (ruleWord base m n ||| (x &&& 0x00C0#16)) (build m n) := by
  have h8 : base &&& 0x0F00#16 = 0#16 := base_and_eq_zero hbase (by decide) (by decide)
  have h12 : base &&& 0xF000#16 = 0#16 := base_and_eq_zero hbase (by decide) (by decide)
  refine oneWord_of_row (hrow m n) ((ruleWord_and base x m n (by decide) (by decide)).trans hbase) ?_
  rw [hform, field11to8_ruleWord base x m n h8 (by decide), field15to12_ruleWord base x m n h12 (by decide)]

theorem oneWord_load (m : Nibble) (off : BitVec 4) (x : Word) :
    OneWord (ruleWord 0x0000#16 m off ||| (x &&& 0x00C0#16)) (.load m off) :=
  oneWord_memory (fun _ _ => rfl) (fun _ _ _ => rfl) (by decide) m off x

theorem oneWord_store (m : Nibble) (off : BitVec 4) (x : Word) :
    OneWord (ruleWord 0x0010#16 m off ||| (x &&& 0x00C0#16)) (.store m off) :=
  oneWord_memory (fun _ _ => rfl) (fun _ _ _ => rfl) (by decide) m off x

theorem oneWord_push (m : Nibble) (n : RegIndex) (x : Word) :
    OneWord (ruleWord 0x0020#16 m n ||| (x &&& 0x00C0#16)) (.push m n) :=
  oneWord_memory (fun _ _ => rfl) (fun _ _ _ => rfl) (by decide) m n x

theorem oneWord_pop (m : Nibble) (n : RegIndex) (x : Word) :
    OneWord (ruleWord 0x0030#16 m n ||| (x &&& 0x00C0#16)) (.pop m n) :=
  oneWord_memory (fun _ _ => rfl) (fun _ _ _ => rfl) (by decide) m n x

/-! ### Load (R201) -/

section
variable {m : Nibble} {off : BitVec 4} {s : State}

/-- With the selected halves in range the two transfers make one merge. -/
theorem execLoad_of_lt (hlow : lowsel m = true → (effAddr off s).toNat < s.params.capacity)
    (hup : upsel m = true → (effAddr off s + 1#32).toNat < s.params.capacity) :
    execLoad m off s = .next (s.setReg VR (ruleMerge (s.reg VR)
      (cat (s.mem.readWord (effAddr off s + 1#32).toNat) (s.mem.readWord (effAddr off s).toNat)) m)) := by
  rw [← mergeUpper_mergeLower]
  cases hl : lowsel m <;> cases hu : upsel m
  case false.false => simp [execLoad, hl, hu, mergeLower_of_not_lowsel, mergeUpper_of_not_upsel]
  case false.true => simp [execLoad, hl, hu, mergeLower_of_not_lowsel, memRead_of_lt (hup hu)]
  case true.false => simp [execLoad, hl, hu, mergeUpper_of_not_upsel, memRead_of_lt (hlow hl)]
  case true.true => simp [execLoad, hl, hu, memRead_of_lt (hlow hl), memRead_of_lt (hup hu)]

theorem execLoad_of_lower_le (hl : lowsel m = true) (h : s.params.capacity ≤ (effAddr off s).toNat) :
    execLoad m off s = .next (s.takeFault (illegalAddress (effAddr off s))) := by
  simp [execLoad, hl, memRead_of_le h]

/-- R201: VR is written last, so a fault of the upper half leaves it alone. -/
theorem execLoad_of_upper_le (hlow : lowsel m = true → (effAddr off s).toNat < s.params.capacity) (hu : upsel m = true)
    (h : s.params.capacity ≤ (effAddr off s + 1#32).toNat) :
    execLoad m off s = .next (s.takeFault (illegalAddress (effAddr off s + 1#32))) := by
  cases hl : lowsel m
  case false => simp [execLoad, hl, hu, memRead_of_le h]
  case true => simp [execLoad, hl, hu, memRead_of_lt (hlow hl), memRead_of_le h]

/-! ### Store (R202) -/

theorem execStore_of_lt (hlow : lowsel m = true → (effAddr off s).toNat < s.params.capacity)
    (hup : upsel m = true → (effAddr off s + 1#32).toNat < s.params.capacity) :
    execStore m off s = .next (s.setMem
      ((s.mem.mergeIf (lowsel m) (effAddr off s).toNat (lo16 (s.reg VR)) (maskLow m)).mergeIf (upsel m)
        (effAddr off s + 1#32).toNat (hi16 (s.reg VR)) (maskHigh m))) := by
  simp only [execStore, mergeWrite_mergeIf _ hlow, Attempt.done_andThen, mergeWrite_setMem_mergeIf _ _ hup,
    Attempt.finish_done]

theorem execStore_of_lower_le (hl : lowsel m = true) (h : s.params.capacity ≤ (effAddr off s).toNat) :
    execStore m off s = .next (s.takeFault (illegalAddress (effAddr off s))) := by
  simp [execStore, hl, mergeWrite_of_le h]

/-- R248: a fault of the upper half leaves the lower word as it was written. -/
theorem execStore_of_upper_le (hlow : lowsel m = true → (effAddr off s).toNat < s.params.capacity) (hu : upsel m = true)
    (h : s.params.capacity ≤ (effAddr off s + 1#32).toNat) :
    execStore m off s = .next ((s.setMem
      (s.mem.mergeIf (lowsel m) (effAddr off s).toNat (lo16 (s.reg VR)) (maskLow m))).takeFault
        (illegalAddress (effAddr off s + 1#32))) := by
  have hraise : ∀ mem src mh, mergeWrite (effAddr off s + 1#32) src mh (s.setMem mem) =
      .raised (illegalAddress (effAddr off s + 1#32)) (s.setMem mem) := fun mem _ _ => mergeWrite_of_le (s := s.setMem mem) h
  simp only [execStore, mergeWrite_mergeIf _ hlow, Attempt.done_andThen, if_pos hu, hraise, Attempt.finish_raised]

end

/-- The two words of a transfer are two cells, also where the sum wraps. -/
theorem add_one_toNat_ne (a : Value) : (a + 1#32).toNat ≠ a.toNat := by
  intro h
  have hself : a + 1#32 = a := BitVec.eq_of_toNat_eq h
  simp at hself

/-! ### Push (R203) -/

theorem pushHalf_mergeIf (b : Bool) (src mh : Word) (s : State) :
    (if b then pushHalf SP src mh s else .done () s) =
      .done () ((s.decrIf b SP).setMem (s.mem.mergeIf b ((s.decrIf b SP).reg SP).toNat src mh)) := by
  cases b
  case false => rfl
  case true => exact pushHalf_eq SP src mh s (by decide)

/-- A push always completes: SP is masked before it is used. -/
theorem execPush_eq (m : Nibble) (n : RegIndex) (s : State) :
    let s1 := s.decrIf (upsel m) SP
    let s2 := s1.decrIf (lowsel m) SP
    execPush m n s = .next (s2.setMem
      ((s.mem.mergeIf (upsel m) (s1.reg SP).toNat (hi16 (s.reg n)) (maskHigh m)).mergeIf (lowsel m) (s2.reg SP).toNat
        (lo16 (s.reg n)) (maskLow m))) := by
  intro s1 s2
  simp only [execPush, pushHalf_mergeIf, Attempt.done_andThen, Attempt.finish_done, State.decrIf_setMem, State.setMem_setMem,
    State.setMem_mem, State.setMem_reg, s1, s2]

/-! ### Pop (R204) -/

/-- A half that is not selected makes no access; its transfer `f` would keep the value. -/
theorem popWord_incrIf (b : Bool) {v : Value} {f : Word → Value} (hf : b = false → ∀ w, f w = v) {s : State}
    (h : (s.reg SP).toNat < s.params.capacity) :
    (if b then (popWord SP s).andThen fun w t => .done (f w) t else .done v s) =
      .done (f (s.mem.readWord (s.reg SP).toNat)) (s.incrIf b SP) := by
  cases b
  case false => rw [hf rfl]; rfl
  case true => rw [if_pos rfl, popWord_eq SP s h]; rfl

/-- A pop completes with SP inside memory: the register is written last, with one merge of its old value. -/
theorem execPop_of_lt (m : Nibble) (n : RegIndex) {s : State} (h : (s.reg SP).toNat < s.params.capacity) :
    let s1 := s.incrIf (lowsel m) SP
    let s2 := s1.incrIf (upsel m) SP
    execPop m n s = .next (s2.setReg n (ruleMerge (s.reg n)
      (cat (s.mem.readWord (s1.reg SP).toNat) (s.mem.readWord (s.reg SP).toNat)) m)) := by
  intro s1 s2
  have h1 : (s1.reg SP).toNat < s1.params.capacity := by
    rw [State.incrIf_params]
    exact State.incrIf_reg_lt _ (by decide) h
  have hlower : ∀ v, lowsel m = false → ∀ w, mergeLower v w m = v := fun v hl => mergeLower_of_not_lowsel hl v
  have hupper : ∀ v, upsel m = false → ∀ w, mergeUpper v w m = v := fun v hu => mergeUpper_of_not_upsel hu v
  simp only [execPop, popWord_incrIf _ (hlower _) h, Attempt.done_andThen]
  rw [popWord_incrIf _ (hupper _) h1, Attempt.done_andThen, Attempt.finish_done, mergeUpper_mergeLower, State.incrIf_mem]

/-! ### The statements -/

/-- Settles O43: the merge of `execLoad_of_lt` is all that is written. -/
theorem loadCompletes : Obligations.LoadCompletes := fun m off x s hlow hup => by
  refine ⟨oneWord_load m off x, _, execLoad_of_lt hlow hup, ?_⟩
  exact regWritten_setReg VR _ s

/-- Settles O44: whichever half is first out of range, nothing was written before it. -/
theorem loadRaisesIllegalAddress : Obligations.LoadRaisesIllegalAddress := fun _ _ s =>
  ⟨fun hl h => ⟨_, execLoad_of_lower_le hl h, faultTaken_takeFault _ s⟩,
    fun hlow hu h => ⟨_, execLoad_of_upper_le hlow hu h, faultTaken_takeFault _ s⟩⟩

/-- Settles O45: the two words are two cells (`add_one_toNat_ne`), so neither merge disturbs the other. -/
theorem storeCompletes : Obligations.StoreCompletes := fun m off x s hlow hup => by
  have hne := add_one_toNat_ne (effAddr off s)
  refine ⟨oneWord_store m off x, _, execStore_of_lt hlow hup, frame_setMem [] fun a ha => ?frame, fun hl => ?low,
    fun hu => ?up⟩
  case frame => exact Memory.readByte_mergeIf_mergeIf _ _ _ _ _ _ _ _ _ ha
  case low =>
    rw [State.setMem_mem, Memory.readWord_mergeIf_other _ _ _ _ _ fun _ => hne.symm,
      Memory.readWord_mergeIf_same _ _ _ _ _ hl]
  case up =>
    rw [State.setMem_mem, Memory.readWord_mergeIf_same _ _ _ _ _ hu, Memory.readWord_mergeIf_other _ _ _ _ _ fun _ => hne]

/-- Settles O46: what the lower half wrote before the upper one raised stays. -/
theorem storeRaisesIllegalAddress : Obligations.StoreRaisesIllegalAddress := fun m off s => by
  refine ⟨fun hl h => ⟨_, execStore_of_lower_le hl h, faultTaken_takeFault _ s⟩, fun hlow hu h =>
    ⟨_, execStore_of_upper_le hlow hu h, ?frame, fun hl => ?low⟩⟩
  case frame =>
    exact frame_setMem (s := s.takeFault _) [] fun a ha => Memory.readByte_mergeIf_other s.mem _ _ _ _ ha
  case low => exact Memory.readWord_mergeIf_same _ _ _ _ _ hl

/-- The second cell of a push is another cell than the first. -/
theorem decr_decr_reg_ne (s : State) (p : RegIndex) (hp : 12#4 ≤ p) :
    (((s.decr p 1#32).decr p 1#32).reg p).toNat ≠ ((s.decr p 1#32).reg p).toNat := by
  have h := and_addrMask_sub_one_ne s.params _ (State.decr_reg_lt s p 1#32 hp)
  rwa [State.decr_reg_same _ p, State.decr_params, regmask_of_le _ _ hp]

/-- Settles O47: SP moves within the frame of SP, and the two cells differ when both halves are selected. -/
theorem pushCompletes : Obligations.PushCompletes := fun m n x s => by
  have hne : lowsel m = true → upsel m = true → (((s.decrIf (upsel m) SP).decrIf (lowsel m) SP).reg SP).toNat ≠
      ((s.decrIf (upsel m) SP).reg SP).toNat := fun hl hu => by
    rw [hl, hu]
    exact decr_decr_reg_ne s SP (by decide)
  refine ⟨oneWord_push m n x, _, execPush_eq m n s, rfl, ?frame, fun hu => ?up, fun hl => ?low⟩
  case frame =>
    have hsp : ∀ words, Frame [SP] words s ((s.decrIf (upsel m) SP).decrIf (lowsel m) SP) := fun words =>
      (frame_decrIf s _ SP (by simp) words).trans (frame_decrIf _ _ SP (by simp) words)
    refine (hsp _).trans (frame_setMem [SP] fun a ha => ?_)
    rw [State.decrIf_mem, State.decrIf_mem]
    exact Memory.readByte_mergeIf_mergeIf _ _ _ _ _ _ _ _ _ ha
  case up =>
    exact (Memory.readWord_mergeIf_other _ _ _ _ _ fun hl => (hne hl hu).symm).trans
      (Memory.readWord_mergeIf_same _ _ _ _ _ hu)
  case low =>
    refine (Memory.readWord_mergeIf_same _ _ _ _ _ hl).trans ?_
    rw [Memory.readWord_mergeIf_other _ _ _ _ _ fun hu => hne hl hu]
    rfl

/-- Settles O48: the register is written last, so that popping SP leaves the popped value. -/
theorem popCompletes : Obligations.PopCompletes := fun m n x s hm => by
  refine ⟨oneWord_pop m n x, _, execPop_of_lt m n (hm.reg_lt SP (by decide)), ?value, fun hn => ?sp, ?frame⟩
  case value =>
    rw [State.setReg_reg_same, State.incrIf_params, State.incrIf_params]
    rfl
  case sp => exact State.setReg_reg_other _ n SP _ hn.symm
  case frame =>
    exact ((frame_incrIf s _ SP (by simp) []).trans (frame_incrIf _ _ SP (by simp) [])).trans (frame_setReg (by simp) [] _ _)

/-! ### Reading back what was written -/

/-- Merging in words that hold `w` under the nibble is merging in `w`. -/
theorem ruleMerge_cat_of_merged {m : Nibble} {upper lower : Word} {w : Value} (v : Value)
    (hlow : lowsel m = true → ∃ old, lower = merge16 old (lo16 w) (maskLow m))
    (hup : upsel m = true → ∃ old, upper = merge16 old (hi16 w) (maskHigh m)) :
    ruleMerge v (cat upper lower) m = ruleMerge v w m := by
  have hl : merge16 (lo16 v) lower (maskLow m) = merge16 (lo16 v) (lo16 w) (maskLow m) := by
    cases hs : lowsel m
    case false => rw [maskLow_of_not_lowsel hs, merge16_none, merge16_none]
    case true =>
      obtain ⟨old, rfl⟩ := hlow hs
      exact merge16_merge16 _ _ _ _
  have hu : merge16 (hi16 v) upper (maskHigh m) = merge16 (hi16 v) (hi16 w) (maskHigh m) := by
    cases hs : upsel m
    case false => rw [maskHigh_of_not_upsel hs, merge16_none, merge16_none]
    case true =>
      obtain ⟨old, rfl⟩ := hup hs
      exact merge16_merge16 _ _ _ _
  rw [ruleMerge_eq_cat, ruleMerge_eq_cat, hi16_cat, lo16_cat, hl, hu]

theorem ruleMerge_self (v : Value) (m : Nibble) : ruleMerge v v m = v := by
  rw [ruleMerge_eq_cat, merge16_self, merge16_self, cat_hi16_lo16]

/-- Settles O50: the address of the two cells does not depend on VR, and each holds what `store` merged into it. -/
theorem storeThenLoadRestores : Obligations.StoreThenLoadRestores := fun m off v s hlow hup => by
  obtain ⟨-, t, ht, hframe, hlower, hupper⟩ := storeCompletes m off 0#16 s hlow hup
  have haddr : effAddr off (t.setReg VR v) = effAddr off s := by
    rw [effAddr, State.setReg_reg_other t VR AR v (by decide), hframe.reg AR (by simp), effAddr]
  have hload := execLoad_of_lt (m := m) (off := off) (s := t.setReg VR v)
    (by rw [haddr, State.setReg_params, hframe.params]; exact hlow)
    (by rw [haddr, State.setReg_params, hframe.params]; exact hup)
  refine ⟨t, _, ht, hload, ?_⟩
  rw [State.setReg_reg_same, regmask_VR, and_allOnes32, State.setReg_reg_same, regmask_VR, and_allOnes32, haddr]
  exact ruleMerge_cat_of_merged v (fun hl => ⟨_, hlower hl⟩) (fun hu => ⟨_, hupper hu⟩)

/-- A masked pointer that one push moved and one pop moved back is where it was. -/
theorem incrIf_reg_of_decrIf {s t : State} {b : Bool} {p : RegIndex} (hm : s.Masked) (hp : 12#4 ≤ p)
    (hparams : t.params = s.params) (h : t.reg p = (s.decrIf b p).reg p) : (t.incrIf b p).reg p = s.reg p := by
  cases b
  case false => exact h
  case true =>
    have hs : s.reg p &&& addrMask s.params = s.reg p := by rw [← regmask_of_le _ _ hp, hm p]
    rw [State.incrIf_true, State.incr_reg_same, h, hparams, State.decrIf_true, State.decr_reg_same, regmask_of_le _ _ hp,
      and_addrMask_sub_add, hs]

/-- Outside one register a frame keeps the masks; that register is masked when it holds what it holds in a masked state. -/
theorem State.Masked.of_frame {s s' t : State} {p : RegIndex} {words : List Nat} (hm : s.Masked) (hm' : s'.Masked)
    (hparams : s'.params = s.params) (hp : t.reg p = s'.reg p) (hframe : Frame [p] words s t) : t.Masked := fun i => by
  rw [hframe.params]
  by_cases hi : i = p
  · rw [hi, hp, ← hparams, hm' p]
  · rw [hframe.reg i (by simpa using hi), hm i]

/-- Settles O49: the pops find the cells the pushes wrote, in the opposite order, and SP comes back half by half. -/
theorem pushThenPopRestores : Obligations.PushThenPopRestores := fun m n s hm hn => by
  obtain ⟨-, t, ht, hsp, hframe, hupper, hlower⟩ := pushCompletes m n 0#16 s
  have hm1 : (s.decrIf (upsel m) SP).Masked := hm.decrIf _ SP
  have htm : t.Masked :=
    hm.of_frame (hm1.decrIf (lowsel m) SP) ((State.decrIf_params ..).trans (State.decrIf_params ..)) hsp hframe
  obtain ⟨-, u, hu, hvalue, husp, huframe⟩ := popCompletes m n 0#16 t htm
  have hsp1 : (t.incrIf (lowsel m) SP).reg SP = (s.decrIf (upsel m) SP).reg SP :=
    incrIf_reg_of_decrIf hm1 (by decide) (hframe.params.trans (State.decrIf_params ..).symm) hsp
  have hsp2 : ((t.incrIf (lowsel m) SP).incrIf (upsel m) SP).reg SP = s.reg SP :=
    incrIf_reg_of_decrIf hm (by decide) ((State.incrIf_params ..).trans hframe.params) hsp1
  have hcells : ruleMerge (t.reg n)
      (cat (t.mem.readWord ((t.incrIf (lowsel m) SP).reg SP).toNat) (t.mem.readWord (t.reg SP).toNat)) m = s.reg n := by
    rw [hsp1, hsp, hframe.reg n (by simpa using hn)]
    exact (ruleMerge_cat_of_merged _ (fun hl => ⟨_, hlower hl⟩) (fun hu => ⟨_, hupper hu⟩)).trans (ruleMerge_self _ m)
  refine ⟨t, u, ht, hu, fun i => ?_⟩
  by_cases hin : i = n
  · rw [hin]
    calc u.reg n = s.reg n &&& regmask t.params n := hvalue.trans (congrArg (· &&& _) hcells)
      _ = s.reg n := by rw [hframe.params, hm n]
  · by_cases hisp : i = SP
    · rw [hisp]
      exact (husp hn).trans hsp2
    · rw [huframe.reg i (by simp [hin, hisp]), hframe.reg i (by simpa using hisp)]

end Sys2Proof.Machine
end

section
/-! Calls and `return` (spec/45_branch.md R185 to R193, spec/48_misc.md R225): the effect of a taken call, its inverse,
and the statements assembled from them. -/

namespace Sys2Proof.Machine

/-! ### A taken call (R185) -/

/-- The two halves of the return address lie in two cells, and IP is written after them. -/
theorem callTo_calls (a : Value) (s : State) : ∃ t, callTo a s = .next t ∧ CallTaken a s t := by
  have hne := decr_decr_reg_ne s CSP (by decide)
  refine ⟨_, callTo_eq a s, ?ip, ?csp, ?upper, ?lower, ?frame⟩
  case ip => exact State.setReg_reg_same _ IP a
  case csp => exact State.setReg_reg_other _ IP CSP a (by decide)
  case upper => exact (Memory.readWord_writeWord_other _ _ _ _ hne.symm).trans (Memory.readWord_writeWord_same ..)
  case lower => exact Memory.readWord_writeWord_same ..
  case frame =>
    refine Frame.trans ?_ (frame_setReg (by simp) _ a _)
    refine ((frame_setReg (by simp) _ _ s).trans (frame_setReg (by simp) _ _ _)).trans (frame_setMem _ fun b hb => ?_)
    simp only [List.mem_cons, List.not_mem_nil, or_false, not_or] at hb
    obtain ⟨h1, h2⟩ := hb
    rw [Memory.readByte_writeWord_other _ _ _ _ h2, Memory.readByte_writeWord_other _ _ _ _ h1]
    rfl

/-- Settles O40: both words by the variant's row of the decoder, the call by `callTo_calls`. -/
theorem callAlways : Obligations.CallAlways := fun r a x s =>
  ⟨⟨branchSelects_call.oneWord (by decide) r x, callTo_calls (s.reg r) s⟩,
    ⟨branchSelects_call.targetWords (by decide) x, callTo_calls a s⟩⟩

/-- Settles O41: as O40, the call under the condition. -/
theorem callWhenFlag : Obligations.CallWhenFlag := fun r a x s =>
  ⟨⟨branchSelects_callc.oneWord (by decide) r x, whenFlag_completes (callTo_calls (s.reg r) s)⟩,
    ⟨branchSelects_callc.targetWords (by decide) x, whenFlag_completes (callTo_calls a s)⟩⟩

/-! ### Return (R225) -/

theorem execReturn_of_lt {s : State} (h : (s.reg CSP).toNat < s.params.capacity) :
    execReturn s = .next (((s.incr CSP 1#32).incr CSP 1#32).setReg IP
      (cat (s.mem.readWord ((s.incr CSP 1#32).reg CSP).toNat) (s.mem.readWord (s.reg CSP).toNat))) := by
  rw [execReturn, popCall_eq s h, Attempt.done_andThen, Attempt.finish_done]

theorem oneWord_ret (x : Word) : OneWord (0x0009#16 ||| (x &&& 0xFF00#16)) .ret :=
  oneWord_of_row rfl ((and_or_ignored _ x (by decide)).trans (by decide)) rfl

/-- Settles O54: CSP moves within its frame, IP is written last. -/
theorem returnResult : Obligations.ReturnResult := fun x s hm => by
  refine ⟨oneWord_ret x, _, execReturn_of_lt (hm.reg_lt CSP (by decide)), ?ip, ?csp, ?frame⟩
  case ip => exact State.setReg_reg_same _ IP _
  case csp => exact State.setReg_reg_other _ IP CSP _ (by decide)
  case frame =>
    exact ((frame_setReg (by simp) [] _ s).trans (frame_setReg (by simp) [] _ _)).trans (frame_setReg (by simp) [] _ _)

/-- A `return` from the state a call left, whatever IP its own fetch left, undoes the call but for the memory. -/
theorem return_of_callTaken {a ip : Value} {s t : State} (hm : s.Masked) (h : CallTaken a s t) :
    ∃ u, exec .ret (t.setReg IP ip) = .next u ∧
      u.reg IP = s.reg IP ∧ u.reg CSP = s.reg CSP ∧ u.reg SP = s.reg SP ∧ u.mem = t.mem := by
  obtain ⟨-, hcsp, hupper, hlower, hframe⟩ := h
  have hcsp' : (t.setReg IP ip).reg CSP = ((s.decr CSP 1#32).decr CSP 1#32).reg CSP :=
    (State.setReg_reg_other t IP CSP ip (by decide)).trans hcsp
  have hcsp1 : ((t.setReg IP ip).incr CSP 1#32).reg CSP = (s.decr CSP 1#32).reg CSP :=
    incrIf_reg_of_decrIf (b := true) (hm.setReg CSP _) (by decide) hframe.params hcsp'
  have hcsp2 : (((t.setReg IP ip).incr CSP 1#32).incr CSP 1#32).reg CSP = s.reg CSP :=
    incrIf_reg_of_decrIf (b := true) hm (by decide) hframe.params hcsp1
  have hlt : ((t.setReg IP ip).reg CSP).toNat < (t.setReg IP ip).params.capacity := by
    rw [hcsp', State.setReg_params, hframe.params]
    exact State.decr_reg_lt _ CSP _ (by decide)
  refine ⟨_, execReturn_of_lt hlt, ?ip, ?csp, ?sp, rfl⟩
  case ip =>
    rw [State.setReg_reg_same, hcsp1, hcsp', State.setReg_mem, hupper, hlower, cat_hi16_lo16]
    exact (congrArg (s.reg IP &&& regmask · IP) hframe.params).trans (hm IP)
  case csp => exact (State.setReg_reg_other _ IP CSP _ (by decide)).trans hcsp2
  case sp =>
    rw [State.setReg_reg_other _ IP SP _ (by decide), State.incr_reg_other _ CSP SP _ (by decide),
      State.incr_reg_other _ CSP SP _ (by decide), State.setReg_reg_other _ IP SP _ (by decide), hframe.reg SP (by decide)]

/-- Settles O42: both calls leave what `return_of_callTaken` starts from. -/
theorem callThenReturnResumes : Obligations.CallThenReturnResumes := fun r a ip s hm => by
  have hresume : ∀ target, ∃ t u, callTo target s = .next t ∧ exec .ret (t.setReg IP ip) = .next u ∧
      u.reg IP = s.reg IP ∧ u.reg CSP = s.reg CSP ∧ u.reg SP = s.reg SP ∧ u.mem = t.mem := fun target => by
    obtain ⟨t, ht, hcall⟩ := callTo_calls target s
    obtain ⟨u, hu⟩ := return_of_callTaken hm hcall
    exact ⟨t, u, ht, hu⟩
  exact ⟨hresume a, hresume (s.reg r)⟩

end Sys2Proof.Machine
end

section
/-! What a step can do (spec/70_reset_and_hazards.md R271 to R273): the fetch and every instruction described once, and from
that the invariant and the statements about every step. -/

namespace Sys2Proof.Machine

/-! ### Writing registers and memory -/

/-- `t` comes from `s` by writes of registers, each through its mask, and of words inside memory. -/
inductive Moves (s : State) : State → Prop
  | refl : Moves s s
  | setReg {t : State} (h : Moves s t) (i : RegIndex) (v : Value) : Moves s (t.setReg i v)
  | writeWord {t : State} (h : Moves s t) {a : Nat} (w : Word) (ha : a < t.params.capacity) :
      Moves s (t.setMem (t.mem.writeWord a w))

theorem Moves.inv {s t : State} (h : Moves s t) (hs : s.Inv) : t.Inv := by
  induction h with
  | refl => exact hs
  | setReg _ i v ih => exact ih.setReg i v
  | writeWord _ w ha ih => exact ih.writeWord _ w ha

/-- Everything but the registers and the memory is as in `s`. -/
structure SameControl (s t : State) : Prop where
  flag : t.flag = s.flag
  keepExecuting : t.keepExecuting = s.keepExecuting
  fault : t.fault = s.fault
  params : t.params = s.params

theorem Moves.control {s t : State} (h : Moves s t) : SameControl s t := by
  induction h with
  | refl => exact ⟨rfl, rfl, rfl, rfl⟩
  | setReg _ _ _ ih => exact ⟨ih.flag, ih.keepExecuting, ih.fault, ih.params⟩
  | writeWord _ _ _ ih => exact ⟨ih.flag, ih.keepExecuting, ih.fault, ih.params⟩

theorem Moves.incrIf {s t : State} (h : Moves s t) (b : Bool) (p : RegIndex) : Moves s (t.incrIf b p) := by
  cases b
  case false => exact h
  case true => exact h.setReg p _

/-- However far an attempt got, it only wrote registers and memory; a fault it raised is one of `raises`. -/
def Attempt.MovesFrom {α : Type} (s : State) (raises : FaultRecord → Prop) : Attempt α → Prop
  | .done _ t => Moves s t
  | .raised f t => Moves s t ∧ raises f

section
variable {α β : Type} {s t : State} {raises : FaultRecord → Prop}

theorem Attempt.MovesFrom.done (h : Moves s t) (a : α) : (Attempt.done a t).MovesFrom s raises := h

theorem Attempt.MovesFrom.andThen {x : Attempt α} {k : α → State → Attempt β} (hx : x.MovesFrom s raises)
    (hk : ∀ a t, Moves s t → (k a t).MovesFrom s raises) : (x.andThen k).MovesFrom s raises := by
  cases x with
  | done a t => exact hk a t hx
  | raised f t => exact hx

/-- The record of an access that can fail: an address at or above CAPACITY (R241). -/
def OutOfRange (s : State) (f : FaultRecord) : Prop := ∃ a : Value, f = illegalAddress a ∧ s.params.capacity ≤ a.toNat

theorem memRead_moves (hr : ∀ f, OutOfRange s f → raises f) (h : Moves s t) (a : Value) :
    (memRead a t).MovesFrom s raises := by
  unfold memRead
  split
  · next ha => exact ⟨h, hr _ ⟨a, rfl, h.control.params ▸ ha⟩⟩
  · exact h

theorem memWrite_moves (hr : ∀ f, OutOfRange s f → raises f) (h : Moves s t) (a : Value) (w : Word) :
    (memWrite a w t).MovesFrom s raises := by
  unfold memWrite
  split
  · next ha => exact ⟨h, hr _ ⟨a, rfl, h.control.params ▸ ha⟩⟩
  · next ha => exact h.writeWord w (Nat.not_le.mp ha)

theorem mergeWrite_moves (hr : ∀ f, OutOfRange s f → raises f) (h : Moves s t) (a : Value) (src mh : Word) :
    (mergeWrite a src mh t).MovesFrom s raises := by
  unfold mergeWrite
  split
  · exact memWrite_moves hr h a _
  · exact (memRead_moves hr h a).andThen fun _ _ h => memWrite_moves hr h a _

theorem nextWord_moves (hr : ∀ f, OutOfRange s f → raises f) (h : Moves s t) : (nextWord t).MovesFrom s raises :=
  (memRead_moves hr h _).andThen fun _ _ h => h.setReg IP _

theorem popWord_moves (hr : ∀ f, OutOfRange s f → raises f) (h : Moves s t) (p : RegIndex) :
    (popWord p t).MovesFrom s raises :=
  (memRead_moves hr h _).andThen fun _ _ h => h.setReg p _

end

/-! ### The fetch (R98) -/

/-- The faults of fetch and decode. -/
def FetchFault (s : State) (f : FaultRecord) : Prop := OutOfRange s f ∨ ∃ e, f = decodeFault e

theorem fetchHalf_moves {s t : State} (h : Moves s t) (b : Bool) : (fetchHalf b t).MovesFrom s (FetchFault s) := by
  cases b
  case false => exact h
  case true => exact nextWord_moves (fun _ => .inl) h

theorem fetchRest_moves {s t : State} (h : Moves s t) (first : FirstWord) :
    (fetchRest first t).MovesFrom s (FetchFault s) := by
  cases first with
  | complete i => exact h
  | maskable m build =>
    exact (fetchHalf_moves h _).andThen fun _ _ h => (fetchHalf_moves h _).andThen fun _ _ h => h
  | full build =>
    exact (nextWord_moves (fun _ => .inl) h).andThen fun _ _ h =>
      (nextWord_moves (fun _ => .inl) h).andThen fun _ _ h => h

theorem fetchInstr_moves (s : State) : (fetchInstr s).MovesFrom s (FetchFault s) :=
  (nextWord_moves (fun _ => .inl) .refl).andThen fun w t h => by
    cases decodeFirst w with
    | ok first => exact fetchRest_moves h first
    | error e => exact ⟨h, .inr ⟨e, rfl⟩⟩

/-! ### Every instruction -/

/-- The ways an instruction answers a next state: it writes registers and memory, or the flag, or halts, or takes one of the
two faults of the execute phase, or takes or gives a character. -/
inductive Executes (i : Instr) (s : State) : State → Prop
  | moved {t : State} (h : Moves s t) : Executes i s t
  | flagged (b : Bool) (hi : writesFlag i = true) : Executes i s (s.setFlag b)
  | stopped (hi : i = .terminate) : Executes i s s.stop
  | divided : Executes i s (s.takeFault divideByZero)
  | raised {u : State} (h : Moves s u) {f : FaultRecord} (hf : OutOfRange s f)
      (hi : s.Masked → ∃ m off, i = .load m off ∨ i = .store m off) : Executes i s (u.takeFault f)
  | input (rest : List Byte) {t : State} (h : Moves { s with input := rest } t) : Executes i s t
  | output (b : Byte) : Executes i s (charOut b s)

section
variable {i : Instr} {s t : State}

theorem executes_of_setReg {d : RegIndex} {v : Value} (h : (.next (s.setReg d v) : Result) = .next t) : Executes i s t := by
  cases h
  exact .moved (.setReg .refl d v)

theorem executes_of_divideInto {f : Reading → Value → Value → Value} {d : RegIndex} {b : Value}
    (h : divideInto f d b s = .next t) : Executes i s t := by
  rcases divideInto_next h with ⟨_, rfl⟩ | ⟨_, _, rfl⟩
  · exact .divided
  · exact .moved (.setReg .refl d _)

theorem executes_of_setFlag {b : Bool} (hi : writesFlag i = true) (h : (.next (s.setFlag b) : Result) = .next t) :
    Executes i s t := by
  cases h
  exact .flagged b hi

theorem executes_of_whenFlag {k : State → Result} (hk : k s = .next t → Executes i s t) (h : whenFlag k s = .next t) :
    Executes i s t := by
  unfold whenFlag at h
  split at h
  · exact hk h
  · cases h
    exact .moved .refl

theorem executes_of_callTo {a : Value} (h : callTo a s = .next t) : Executes i s t := by
  rw [callTo_eq] at h
  cases h
  have hdecr : Moves s ((s.decr CSP 1#32).decr CSP 1#32) := (Moves.refl.setReg CSP _).setReg CSP _
  have hupper := hdecr.writeWord (hi16 (s.reg IP)) (State.decr_reg_lt s CSP 1#32 (by decide))
  exact .moved ((hupper.writeWord (lo16 (s.reg IP)) (State.decr_reg_lt (s.decr CSP 1#32) CSP 1#32 (by decide))).setReg IP a)

/-- An attempt that may raise ends with its writes, or with the fault taken after them. -/
theorem executes_of_finish {x : Attempt Unit} (hx : x.MovesFrom s (OutOfRange s))
    (hi : s.Masked → ∃ m off, i = .load m off ∨ i = .store m off) (h : x.finish = .next t) : Executes i s t := by
  rcases Attempt.finish_cases h with rfl | ⟨f, u, rfl, rfl⟩
  · exact .moved hx
  · exact .raised hx.1 hx.2 hi

theorem Attempt.MovesFrom.ite {α : Type} {raises : FaultRecord → Prop} {b : Bool} {x y : Attempt α}
    (hx : x.MovesFrom s raises) (hy : y.MovesFrom s raises) : (if b then x else y).MovesFrom s raises := by
  split
  · exact hx
  · exact hy

theorem executes_load {m : Nibble} {off : BitVec 4} (h : execLoad m off s = .next t) : Executes (.load m off) s t := by
  refine executes_of_finish ?_ (fun _ => ⟨m, off, .inl rfl⟩) h
  refine .andThen (.andThen ?lower fun v u hu => ?upper) fun v u hu => .done (hu.setReg VR v) ()
  case lower => exact .ite (.andThen (memRead_moves (fun _ => id) .refl _) fun _ _ hu => .done hu _) (.done .refl _)
  case upper => exact .ite (.andThen (memRead_moves (fun _ => id) hu _) fun _ _ hu => .done hu _) (.done hu v)

theorem executes_store {m : Nibble} {off : BitVec 4} (h : execStore m off s = .next t) : Executes (.store m off) s t := by
  refine executes_of_finish ?_ (fun _ => ⟨m, off, .inr rfl⟩) h
  refine .andThen ?lower fun _ u hu => ?upper
  case lower => exact .ite (mergeWrite_moves (fun _ => id) .refl _ _ _) (.done .refl ())
  case upper => exact .ite (mergeWrite_moves (fun _ => id) hu _ _ _) (.done hu ())

/-- One half of a push: SP is masked before it is used, so the cell exists. -/
theorem Moves.pushHalf {u : State} (h : Moves s u) (b : Bool) (src mh : Word) :
    Moves s ((u.decrIf b SP).setMem (u.mem.mergeIf b ((u.decrIf b SP).reg SP).toNat src mh)) := by
  cases b
  case false => exact h
  case true => exact (h.setReg SP _).writeWord _ (State.decr_reg_lt u SP 1#32 (by decide))

theorem executes_push {m : Nibble} {n : RegIndex} (h : execPush m n s = .next t) : Executes (.push m n) s t := by
  simp only [execPush, pushHalf_mergeIf, Attempt.done_andThen, Attempt.finish_done] at h
  cases h
  exact .moved ((Moves.refl.pushHalf _ _ _).pushHalf _ _ _)

/-- With masked registers a pop finds its cells; otherwise nothing is said of when it raises. -/
theorem executes_pop {m : Nibble} {n : RegIndex} (h : execPop m n s = .next t) : Executes (.pop m n) s t := by
  by_cases hm : s.Masked
  · rw [execPop_of_lt m n (hm.reg_lt SP (by decide))] at h
    cases h
    exact .moved (((Moves.refl.incrIf _ SP).incrIf _ SP).setReg n _)
  · refine executes_of_finish ?_ (fun hm' => absurd hm' hm) h
    refine .andThen (.andThen ?lower fun v u hu => ?upper) fun v u hu => .done (hu.setReg n v) ()
    case lower => exact .ite (.andThen (popWord_moves (fun _ => id) .refl SP) fun _ _ hu => .done hu _) (.done .refl _)
    case upper => exact .ite (.andThen (popWord_moves (fun _ => id) hu SP) fun _ _ hu => .done hu _) (.done hu v)

theorem executes_ret (h : execReturn s = .next t) : Executes .ret s t := by
  by_cases hm : s.Masked
  · rw [execReturn_of_lt (hm.reg_lt CSP (by decide))] at h
    cases h
    exact .moved (((Moves.refl.setReg CSP _).setReg CSP _).setReg IP _)
  · refine executes_of_finish ?_ (fun hm' => absurd hm' hm) h
    refine .andThen (.andThen (popWord_moves (fun _ => id) .refl CSP) fun lower u hu => ?upper) fun a u hu =>
      .done (hu.setReg IP a) ()
    case upper => exact .andThen (popWord_moves (fun _ => id) hu CSP) fun upper _ hu => .done hu _

theorem executes_swap {d src : RegIndex} (h : execSwap d src s = .next t) : Executes (.swap d src) s t := by
  unfold execSwap at h
  split at h
  · cases h
    exact .moved .refl
  · cases h
    exact .moved ((Moves.refl.setReg d _).setReg src _)

theorem executes_getc {d : RegIndex} (h : execGetc d s = .next t) : Executes (.getc d) s t := by
  unfold execGetc at h
  split at h
  · next b u hin =>
    obtain ⟨rest, -, rfl⟩ := charIn_some hin
    cases h
    exact .input rest (.setReg .refl d _)
  · cases h

/-- Everything an instruction can do, by the way its group delivers its result. -/
theorem executes_of_exec (h : exec i s = .next t) : Executes i s t := by
  cases i with
  | load _ _ => exact executes_load h
  | store _ _ => exact executes_store h
  | push _ _ => exact executes_push h
  | pop _ _ => exact executes_pop h
  | div _ _ | rem _ _ | divi _ _ _ | remi _ _ _ => exact executes_of_divideInto h
  | add _ _ | sub _ _ | mul _ _ | min _ _ | max _ _ | and _ _ | or _ _ | xor _ _ | nand _ _
  | not _ _
  | addi _ _ _ | subi _ _ _ | muli _ _ _ | mini _ _ _ | maxi _ _ _ | andi _ _ _ | ori _ _ _ | xori _ _ _ | nandi _ _ _
  | noti _ _ _
  | shr _ _ | shl _ _ | shri _ _ | shli _ _ | mfc _ | jmp _ | jmpi _ | move _ _ _ | set _ _ _ =>
    exact executes_of_setReg h
  | eq _ _ | ne _ _ | lt _ _ | gt _ _ | le _ _ | ge _ _
  | eqi _ _ _ | nei _ _ _ | lti _ _ _ | gti _ _ _ | lei _ _ _ | gei _ _ _
  | mtc _ => exact executes_of_setFlag rfl h
  | call _ | calli _ => exact executes_of_callTo h
  | jmpc _ | jmpci _ => exact executes_of_whenFlag executes_of_setReg h
  | callc _ | callci _ => exact executes_of_whenFlag executes_of_callTo h
  | swap _ _ => exact executes_swap h
  | ret => exact executes_ret h
  | terminate => cases h; exact .stopped rfl
  | getc _ => exact executes_getc h
  | putc _ => cases h; exact .output _

/-- A step of a Running core fetches and then takes the decoder's fault or executes what was decoded. -/
theorem step_cases (h : step s = .next t) :
    s.keepExecuting = true ∧
    ((∃ i u, fetchInstr s = .done i u ∧ Moves s u ∧ Executes i u t) ∨
      ∃ f u, Moves s u ∧ FetchFault s f ∧ t = u.takeFault f) := by
  unfold step at h
  split at h
  · next hrun =>
    have hfetch := fetchInstr_moves s
    refine ⟨hrun, ?_⟩
    split at h
    · next i u hi =>
      rw [hi] at hfetch
      exact .inl ⟨i, u, hi, hfetch, executes_of_exec h⟩
    · next f u hi =>
      rw [hi] at hfetch
      cases h
      exact .inr ⟨f, u, hfetch.1, hfetch.2, rfl⟩
  · cases h

/-! ### The invariant and the parameters -/

theorem Executes.inv (h : Executes i s t) (hs : s.Inv) : t.Inv := by
  cases h with
  | moved h => exact h.inv hs
  | flagged b => exact hs.setFlag b
  | stopped => exact hs.stop
  | divided => exact hs.takeFault _
  | raised h => exact (h.inv hs).takeFault _
  | input rest h => exact h.inv (hs.withInput rest)
  | output b => exact hs.charOut b

/-- Settles O17: the fetch keeps the invariant, and so does everything an instruction can do. -/
theorem stepKeepsInvariant : Obligations.StepKeepsInvariant := fun s t hs h => by
  obtain ⟨-, ⟨i, u, -, hu, hexec⟩ | ⟨f, u, hu, -, rfl⟩⟩ := step_cases h
  · exact hexec.inv (hu.inv hs)
  · exact (hu.inv hs).takeFault f

theorem Executes.params (h : Executes i s t) : t.params = s.params := by
  cases h with
  | moved h => exact h.control.params
  | raised h => exact h.control.params
  | input _ h => exact h.control.params
  | flagged | stopped | divided | output => rfl

/-- Settles O18: neither the fetch nor an instruction writes the parameters. -/
theorem stepKeepsParameters : Obligations.StepKeepsParameters := fun s t h => by
  obtain ⟨-, ⟨i, u, -, hu, hexec⟩ | ⟨f, u, hu, -, rfl⟩⟩ := step_cases h
  · exact hexec.params.trans hu.control.params
  · exact hu.control.params

/-! ### The flag and the faults -/

/-- Settles O20: of the ways an instruction ends only one writes the flag. -/
theorem onlyCompareWritesFlag : Obligations.OnlyCompareWritesFlag := fun i s t h hne => by
  cases executes_of_exec h with
  | flagged b hi => exact hi
  | moved hu => exact absurd hu.control.flag hne
  | raised hu => exact absurd hu.control.flag hne
  | input _ hu => exact absurd hu.control.flag hne
  | stopped | divided | output => exact absurd rfl hne

/-- The faults the execute phase leaves on record. -/
theorem Executes.fault (h : Executes i s t) (hs : s.fault = none) :
    t.fault = none ∨ t.fault = some divideByZero ∨
      ∃ f, t.fault = some f ∧ OutOfRange s f ∧ (s.Masked → ∃ m off, i = .load m off ∨ i = .store m off) := by
  cases h with
  | moved h => exact .inl (h.control.fault.trans hs)
  | input _ h => exact .inl (h.control.fault.trans hs)
  | flagged | stopped | output => exact .inl hs
  | divided => exact .inr (.inl rfl)
  | raised _ hf hi => exact .inr (.inr ⟨_, rfl, hf, hi⟩)

/-- Settles O21: with masked registers a stack access finds its cell, so only `load` and `store` are left to raise. -/
theorem illegalAddressOnlyFromLoadStore : Obligations.IllegalAddressOnlyFromLoadStore := fun i s t a hm hs h hf => by
  rcases (executes_of_exec h).fault hs with hnone | hdiv | ⟨f, hsome, ⟨b, rfl, hb⟩, hi⟩
  · exact nomatch hf.symm.trans hnone
  · exact nomatch hf.symm.trans hdiv
  · have hab : b = a := congrArg FaultRecord.info (Option.some.inj (hsome.symm.trans hf))
    exact ⟨hab ▸ hb, hi hm⟩

theorem FetchFault.cause_ne {f : FaultRecord} (h : FetchFault s f) : f.cause ≠ .badBitmaskIndex := by
  rcases h with ⟨a, rfl, -⟩ | ⟨e, rfl⟩
  · exact nofun
  · cases e <;> exact nofun

/-- Settles O22: neither the faults of the fetch nor those of an instruction have that cause. -/
theorem badBitmaskNeverRaised : Obligations.BadBitmaskNeverRaised := fun s t v hs h hf => by
  obtain ⟨-, ⟨i, u, -, hu, hexec⟩ | ⟨f, u, -, hff, rfl⟩⟩ := step_cases h
  · rcases hexec.fault (hu.control.fault.trans hs) with hnone | hdiv | ⟨f, hsome, ⟨b, rfl, -⟩, -⟩
    · exact nomatch hf.symm.trans hnone
    · exact nomatch hf.symm.trans hdiv
    · exact nomatch hf.symm.trans hsome
  · exact hff.cause_ne (congrArg FaultRecord.cause (Option.some.inj hf))

end

end Sys2Proof.Machine
end

section
/-! Division (spec/41_arithmetic.md R124, R125, R131, R132, R135): the values as the rule's formulas, the three ways a
division ends, and the statements assembled from them. -/

namespace Sys2Proof.Machine

/-! ### The values (R135) -/

/-- Rounding toward zero: the magnitudes divide by floor, the signs multiply; a zero operand makes both sides zero. -/
theorem tdiv_eq_sign_mul (a b : Int) : a.tdiv b = a.sign * b.sign * ((a.natAbs / b.natAbs : Nat) : Int) := by
  have hnat : ∀ n k : Nat, ((n / k : Nat) : Int) = (n : Int).sign * (k : Int).sign * ((n / k : Nat) : Int) := fun n k => by
    by_cases hn : n = 0
    · simp [hn]
    · by_cases hk : k = 0
      · simp [hk]
      · rw [Int.sign_natCast_of_ne_zero hn, Int.sign_natCast_of_ne_zero hk, one_mul, one_mul]
  obtain ⟨n, rfl | rfl⟩ := a.eq_nat_or_neg <;> obtain ⟨k, rfl | rfl⟩ := b.eq_nat_or_neg <;>
    simpa [Int.neg_tdiv, Int.tdiv_neg] using hnat n k

theorem quotient_eq_rule (r : Reading) (a b : Value) : quotient r a b = ruleQuotient r a b := by
  cases r with
  | unsigned => rfl
  | signed => exact congrArg (BitVec.ofInt 32) (tdiv_eq_sign_mul a.toInt b.toInt)

theorem remainder_eq_rule (r : Reading) (a b : Value) : remainder r a b = ruleRemainder r a b := by
  cases r with
  | unsigned =>
    have hmod : ((a.toNat % b.toNat : Nat) : Int) = a.toNat - b.toNat * ((a.toNat / b.toNat : Nat) : Int) := by
      rw [Int.natCast_mod, Int.natCast_ediv, Int.emod_def]
    exact (BitVec.ofInt_natCast ..).symm.trans (congrArg (BitVec.ofInt 32) hmod)
  | signed =>
    have hmod : a.toInt.tmod b.toInt =
        a.toInt - a.toInt.sign * b.toInt.sign * ((a.toInt.natAbs / b.toInt.natAbs : Nat) : Int) * b.toInt := by
      rw [Int.tmod_def, tdiv_eq_sign_mul, Int.mul_comm b.toInt]
    exact congrArg (BitVec.ofInt 32) hmod

/-! ### The three ways a division ends -/

theorem divideOverflows_iff (r : Reading) (a b : Value) : divideOverflows r a b = true ↔ Unrepresentable r a b := by
  have hmin : a = 0x80000000#32 ↔ a.toInt = -2 ^ 31 := by
    rw [← BitVec.toInt_inj]; rfl
  have hneg : b = 0xFFFFFFFF#32 ↔ b.toInt = -1 := by
    rw [← BitVec.toInt_inj]; rfl
  simp only [divideOverflows, Bool.and_eq_true, decide_eq_true_eq, beq_iff_eq, hmin, hneg, Unrepresentable, and_assoc]

section
variable {f : Reading → Value → Value → Value} {d : RegIndex} {b : Value} {s : State}

theorem divideInto_zero (f : Reading → Value → Value → Value) (d : RegIndex) (s : State) :
    divideInto f d 0#32 s = .next (s.takeFault divideByZero) := by rw [divideInto, if_pos rfl]

theorem divideInto_of_unrepresentable (h : Unrepresentable s.params.arithInterp (s.reg d) b) :
    divideInto f d b s = .fault .signedDivideOverflow := by
  have hb : b ≠ 0#32 := fun h0 => by
    obtain ⟨-, -, hneg⟩ := h
    rw [h0] at hneg
    exact absurd hneg (by decide)
  rw [divideInto, if_neg hb, if_pos ((divideOverflows_iff ..).mpr h)]

theorem divideInto_of_representable (hb : b ≠ 0#32) (h : ¬ Unrepresentable s.params.arithInterp (s.reg d) b) :
    divideInto f d b s = .next (s.setReg d (f s.params.arithInterp (s.reg d) b)) := by
  rw [divideInto, if_neg hb, if_neg (mt (divideOverflows_iff ..).mp h)]

theorem divideInto_writes {rule : Reading → Value → Value → Value} (hrule : ∀ r a b, f r a b = rule r a b) (hb : b ≠ 0#32)
    (h : ¬ Unrepresentable s.params.arithInterp (s.reg d) b) :
    ∃ t, divideInto f d b s = .next t ∧ RegWritten d (rule s.params.arithInterp (s.reg d) b) s t := by
  rw [← hrule]
  exact ⟨_, divideInto_of_representable hb h, regWritten_setReg d _ s⟩

theorem divideInto_zero_taken (f : Reading → Value → Value → Value) (d : RegIndex) (s : State) :
    ∃ t, divideInto f d 0#32 s = .next t ∧ FaultTaken { cause := .divideByZero, info := 0#32 } s t :=
  ⟨_, divideInto_zero f d s, faultTaken_takeFault _ s⟩

end

/-! ### The statements -/

/-- Settles O25: each word by its row of the decoder, the values by the rule's formulas. -/
theorem divRemRegister : Obligations.DivRemRegister := fun d src _ hb hrep =>
  ⟨⟨styleSelects_div.oneWord (by decide) d src, divideInto_writes quotient_eq_rule hb hrep⟩,
    ⟨styleSelects_rem.oneWord (by decide) d src, divideInto_writes remainder_eq_rule hb hrep⟩⟩

/-- Settles O26: the immediate forms of the same rows. -/
theorem divRemImmediate : Obligations.DivRemImmediate := fun d m _ _ hb hrep =>
  ⟨⟨styleSelects_div.immWords (by decide) d m, divideInto_writes quotient_eq_rule hb hrep⟩,
    ⟨styleSelects_rem.immWords (by decide) d m, divideInto_writes remainder_eq_rule hb hrep⟩⟩

/-- Settles O27: the zero check comes first, whatever the dividend and the reading. -/
theorem divideByZeroTaken : Obligations.DivideByZeroTaken := fun d src _ s => by
  refine ⟨fun hz => ?_, divideInto_zero_taken quotient d s, divideInto_zero_taken remainder d s⟩
  have hdiv : exec (.div d src) s = divideInto quotient d 0#32 s := congrArg (divideInto quotient d · s) hz
  have hrem : exec (.rem d src) s = divideInto remainder d 0#32 s := congrArg (divideInto remainder d · s) hz
  rw [hdiv, hrem]
  exact ⟨divideInto_zero_taken quotient d s, divideInto_zero_taken remainder d s⟩

/-- Settles O28: one case of `divideInto`, for each of the four forms. -/
theorem signedDivideOverflowStops : Obligations.SignedDivideOverflowStops := fun _ _ _ _ _ =>
  ⟨fun h => ⟨divideInto_of_unrepresentable h, divideInto_of_unrepresentable h⟩,
    fun h => ⟨divideInto_of_unrepresentable h, divideInto_of_unrepresentable h⟩⟩

end Sys2Proof.Machine
end

section
/-! Fetch and decode with masked registers (spec/30_encoding.md R98, R104), and the statements about the step and its ends
(spec/70_reset_and_hazards.md R271 to R273). -/

namespace Sys2Proof.Machine

/-! ### Where an instruction completes -/

theorem Attempt.finish_next (x : Attempt Unit) : ∃ t, x.finish = .next t := by
  cases x with
  | done _ t => exact ⟨t, rfl⟩
  | raised f t => exact ⟨t.takeFault f, rfl⟩

theorem whenFlag_next {k : State → Result} {s : State} (h : ∃ t, k s = .next t) : ∃ t, whenFlag k s = .next t := by
  cases hf : s.flag
  case false => exact ⟨s, by simp [whenFlag, hf]⟩
  case true => simpa [whenFlag, hf] using h

theorem execSwap_next (d src : RegIndex) (s : State) : ∃ t, execSwap d src s = .next t := by
  obtain ⟨t, ht, -⟩ := execSwap_exchanges d src s
  exact ⟨t, ht⟩

theorem divideInto_next_or_stops (f : Reading → Value → Value → Value) (d : RegIndex) (b : Value) (s : State) :
    (∃ t, divideInto f d b s = .next t) ∨
      (divideInto f d b s = .fault .signedDivideOverflow ∧ Unrepresentable s.params.arithInterp (s.reg d) b) := by
  by_cases hb : b = 0#32
  · subst hb
    exact .inl ⟨_, divideInto_zero f d s⟩
  · by_cases h : Unrepresentable s.params.arithInterp (s.reg d) b
    · exact .inr ⟨divideInto_of_unrepresentable h, h⟩
    · exact .inl ⟨_, divideInto_of_representable hb h⟩

theorem execGetc_of_nil {s : State} (d : RegIndex) (h : s.input = []) : execGetc d s = .fault .inputExhausted := by
  simp only [execGetc, charIn, h]

theorem execGetc_of_cons {s : State} {b : Byte} {rest : List Byte} (d : RegIndex) (h : s.input = b :: rest) :
    execGetc d s = .next (State.setReg { s with input := rest } d (b.setWidth 32)) := by
  simp only [execGetc, charIn, h]

theorem execGetc_next_or_stops (d : RegIndex) (s : State) :
    (∃ t, execGetc d s = .next t) ∨ (execGetc d s = .fault .inputExhausted ∧ s.input = []) := by
  cases hin : s.input with
  | nil => exact .inr ⟨execGetc_of_nil d hin, rfl⟩
  | cons b rest => exact .inl ⟨_, execGetc_of_cons d hin⟩

/-- Settles O19: only a division and `getc` have a case without a next state, each the one the spec leaves open. -/
theorem stopsOnlyWhereSpecStops : Obligations.StopsOnlyWhereSpecStops := fun i s => by
  cases i with
  | div d src =>
    exact (divideInto_next_or_stops quotient d (s.reg src) s).imp_right fun ⟨hstop, h⟩ =>
      .inr ⟨hstop, d, .inl ⟨src, .inl rfl, h⟩⟩
  | rem d src =>
    exact (divideInto_next_or_stops remainder d (s.reg src) s).imp_right fun ⟨hstop, h⟩ =>
      .inr ⟨hstop, d, .inl ⟨src, .inr rfl, h⟩⟩
  | divi d m v =>
    exact (divideInto_next_or_stops quotient d v s).imp_right fun ⟨hstop, h⟩ =>
      .inr ⟨hstop, d, .inr ⟨m, v, .inl rfl, h⟩⟩
  | remi d m v =>
    exact (divideInto_next_or_stops remainder d v s).imp_right fun ⟨hstop, h⟩ =>
      .inr ⟨hstop, d, .inr ⟨m, v, .inr rfl, h⟩⟩
  | getc d => exact (execGetc_next_or_stops d s).imp_right fun ⟨hstop, hin⟩ => .inl ⟨hstop, hin, d, rfl⟩
  | load _ _ | store _ _ | push _ _ | pop _ _ | call _ | calli _ | ret => exact .inl (Attempt.finish_next _)
  | jmpc _ | jmpci _ => exact .inl (whenFlag_next ⟨_, rfl⟩)
  | callc _ | callci _ => exact .inl (whenFlag_next (Attempt.finish_next _))
  | swap d src => exact .inl (execSwap_next d src s)
  | _ => exact .inl ⟨_, rfl⟩

/-! ### Fetching from a masked state -/

theorem State.Masked.fetchAddr_zero {s : State} (h : s.Masked) : fetchAddr s 0#32 = s.reg IP := by
  rw [fetchAddr, BitVec.add_zero]
  exact h IP

theorem incr_incr_IP (s : State) (x y : Value) : (s.incr IP x).incr IP y = s.incr IP (x + y) := by
  have hip : ((s.incr IP x).incr IP y).reg IP = (s.incr IP (x + y)).reg IP := by
    simp only [State.incr_reg_same, State.incr_params, regmask_IP]
    rw [and_addrMask_add, BitVec.add_assoc]
  have hregs : ((s.incr IP x).incr IP y).regs = (s.incr IP (x + y)).regs := State.regs_ext fun i => by
    by_cases hi : i = IP
    · rw [hi, hip]
    · simp only [State.incr_reg_other _ IP i _ hi]
  calc (s.incr IP x).incr IP y = { s with regs := ((s.incr IP x).incr IP y).regs } := rfl
    _ = s.incr IP (x + y) := by rw [hregs]; rfl

/-- R52, R104: past `x` words IP stands at the word at offset `x`. -/
theorem nextWord_incr (s : State) (x : Value) :
    nextWord (s.incr IP x) = .done (fetchWord s x) (s.incr IP (x + 1#32)) := by
  rw [nextWord_of_lt (State.incr_reg_lt s IP x (by decide)), State.incr_mem, State.incr_reg_same, incr_incr_IP]
  rfl

theorem State.Masked.nextWord_eq {s : State} (h : s.Masked) : nextWord s = .done (fetchWord s 0#32) (s.incr IP 1#32) := by
  rw [nextWord_of_lt (h.reg_lt IP (by decide)), fetchWord, h.fetchAddr_zero]

/-- R98 step 3: the words a form still needs are the ones that follow the first, and IP ends past them. -/
theorem fetchRest_incr (s : State) (first : FirstWord) :
    fetchRest first (s.incr IP 1#32) =
      .done (first.finish (fetchWord s 1#32) (fetchWord s 2#32)) (s.incr IP (BitVec.ofNat 32 (1 + first.extraWords))) := by
  have h2 := nextWord_incr s 1#32
  have h3 := nextWord_incr s 2#32
  cases first with
  | complete i => rfl
  | maskable m build =>
    cases hl : lowsel m <;> cases hu : upsel m <;>
      simp [fetchRest, fetchHalf, FirstWord.finish, maskableImm, FirstWord.extraWords, maskableWords, hl, hu, h2, h3]
  | full build => simp [fetchRest, FirstWord.finish, FirstWord.extraWords, h2, h3]

theorem State.Masked.fetchInstr_of_ok {s : State} (h : s.Masked) {first : FirstWord}
    (hdec : decodeFirst (fetchWord s 0#32) = .ok first) :
    fetchInstr s = .done (first.finish (fetchWord s 1#32) (fetchWord s 2#32))
      (s.incr IP (BitVec.ofNat 32 (1 + first.extraWords))) := by
  rw [fetchInstr, h.nextWord_eq, Attempt.done_andThen, hdec]
  exact fetchRest_incr s first

theorem State.Masked.fetchInstr_of_error {s : State} (h : s.Masked) {e : IllegalWord}
    (hdec : decodeFirst (fetchWord s 0#32) = .error e) :
    fetchInstr s = .raised (decodeFault e) (s.incr IP 1#32) := by
  rw [fetchInstr, h.nextWord_eq, Attempt.done_andThen, hdec]

/-! ### The statements about the step -/

theorem step_of_done {s u : State} {i : Instr} (hrun : s.keepExecuting = true) (h : fetchInstr s = .done i u) :
    step s = exec i u := by rw [step, if_pos hrun, h]

theorem step_of_raised {s u : State} {f : FaultRecord} (hrun : s.keepExecuting = true) (h : fetchInstr s = .raised f u) :
    step s = .next (u.takeFault f) := by rw [step, if_pos hrun, h]

/-- What an accepted instruction's first word reads as. -/
theorem decodeFirst_of_decode {w0 w1 w2 : Word} {i : Instr} (h : decode w0 w1 w2 = .ok i) :
    ∃ first, ReadsAs w0 first ∧ first.finish w1 w2 = i := by
  obtain ⟨j, hsel, rfl⟩ := select_of_decode h
  exact ⟨_, readsAs_rowForm j hsel, rfl⟩

/-- Settles O9: the fetch gives the decoded instruction and leaves IP past its words (`fetchInstr_of_ok`). -/
theorem stepRunsDecodedInstruction : Obligations.StepRunsDecodedInstruction := fun s i hm hrun h => by
  obtain ⟨first, ⟨hdec, hlen⟩, rfl⟩ := decodeFirst_of_decode h
  rw [step_of_done hrun (hm.fetchInstr_of_ok hdec), hlen]

/-- R98: both decode faults are taken with IP one past the word. -/
theorem step_takes_decodeFault {s : State} {e : IllegalWord} (hm : s.Masked) (hrun : s.keepExecuting = true)
    (hdec : decodeFirst (fetchWord s 0#32) = .error e) :
    ∃ t, step s = .next t ∧ FaultTaken (decodeFault e) (s.incr IP 1#32) t :=
  ⟨_, step_of_raised hrun (hm.fetchInstr_of_error hdec), faultTaken_takeFault _ _⟩

/-- Settles O10: the word is refused as `illegalOpcode` (R99), and the step takes that fault. -/
theorem stepTakesIllegalOpcode : Obligations.StepTakesIllegalOpcode := fun _ hm hrun h =>
  step_takes_decodeFault hm hrun (illegalOpcode_of_opField ((le_and_opcode_iff _).mp h)).1

/-- Settles O11: the word is refused as `illegalStyle` (R100), and the step takes that fault. -/
theorem stepTakesIllegalStyle : Obligations.StepTakesIllegalStyle := fun _ hm hrun h =>
  step_takes_decodeFault hm hrun (illegalStyle_of_fields ((undefinedStyle_iff _).mp h)).1

/-- Settles O12: `run` tests before it steps. -/
theorem haltedCoreRunsNothing : Obligations.HaltedCoreRunsNothing := fun s hhalt => by
  refine ⟨by simp [step, hhalt], fun fuel => ?_⟩
  cases fuel <;> simp [run, hhalt]

/-- A Running state an instruction leaves Halted has a fault on record, or the instruction was `terminate`. -/
theorem Executes.halts {i : Instr} {s t : State} (h : Executes i s t) (hrun : s.keepExecuting = true)
    (hhalt : t.keepExecuting = false) : t.fault ≠ none ∨ (t.fault = s.fault ∧ i = .terminate) := by
  cases h with
  | moved h => exact nomatch (h.control.keepExecuting.trans hrun).symm.trans hhalt
  | input _ h => exact nomatch (h.control.keepExecuting.trans hrun).symm.trans hhalt
  | flagged | output => exact nomatch hrun.symm.trans hhalt
  | stopped hi => exact .inr ⟨rfl, hi⟩
  | divided | raised => exact .inl nofun

/-- Settles O13: a refused word leaves its fault on record, and an instruction halts by `terminate` or with a fault
(`Executes.halts`). -/
theorem haltsOnlyByTerminateOrFault : Obligations.HaltsOnlyByTerminateOrFault := fun s t hs hrun h hhalt => by
  cases hdec : decodeFirst (fetchWord s 0#32) with
  | error e =>
    rw [step_of_raised hrun (hs.masked.fetchInstr_of_error hdec)] at h
    cases h
    exact .inl nofun
  | ok first =>
    rw [step_of_done hrun (hs.masked.fetchInstr_of_ok hdec)] at h
    rcases (executes_of_exec h).halts hrun hhalt with hfault | ⟨hsame, hi⟩
    · exact .inl hfault
    · exact .inr ⟨hsame.trans (hs.runningClean hrun), (decode_of_ok hdec _ _).trans (congrArg Except.ok hi)⟩

end Sys2Proof.Machine
end

section
/-! The remaining instructions with one register write or none: the logical immediates (spec/42_logical.md R146 to R150), the
register shifts (spec/43_shift.md R156, R157), the flag moves (spec/44_compare.md R178, R179), Move and Set
(spec/47_move_set_swap.md R216, R217) and Misc (spec/48_misc.md R226 to R228). -/

namespace Sys2Proof.Machine

/-! ### Logical immediates -/

theorem execNoti_writes (d : RegIndex) (m : Nibble) (v : Value) (s : State) :
    ∃ t, execNoti d m v s = .next t ∧ RegWritten d (~~~(s.reg d)) s t := ⟨_, rfl, regWritten_setReg d _ s⟩

/-- Settles O32: each word by its row of the decoder, the two-operand results by `combineInto_writes`, the complement by
`execNoti_writes`. -/
theorem logicalImmediate : Obligations.LogicalImmediate := fun d m v s =>
  ⟨⟨styleSelects_and.immWords (by decide) d m, combineInto_writes (· &&& ·) d v s⟩,
    ⟨styleSelects_or.immWords (by decide) d m, combineInto_writes (· ||| ·) d v s⟩,
    ⟨styleSelects_xor.immWords (by decide) d m, combineInto_writes (· ^^^ ·) d v s⟩,
    ⟨styleSelects_nand.immWords (by decide) d m, combineInto_writes nandValue d v s⟩,
    ⟨styleSelects_not.immWords (by decide) d m, execNoti_writes d m v s⟩⟩

/-! ### Register shifts -/

/-- R156, R157: the word the encoder builds is the rule's, with bits 6 and 15 clear. -/
theorem firstShiftReg_eq_rule (left : Bool) (d src : RegIndex) :
    firstShiftReg left d src =
      (if left then 0x0022#16 else 0x0002#16) ||| (d.setWidth 16 <<< 7) ||| (src.setWidth 16 <<< 11) := by
  apply BitVec.eq_of_getLsbD_eq
  intro i hi
  simp only [firstShiftReg, firstShift, encodeBits]
  cases left <;> interval_cases i <;> simp

theorem oneWord_shiftReg (left : Bool) (d src : RegIndex) (x : Word) :
    OneWord ((if left then 0x0022#16 else 0x0002#16) ||| (d.setWidth 16 <<< 7) ||| (src.setWidth 16 <<< 11) |||
      (x &&& 0x8040#16)) (if left then .shl d src else .shr d src) := by
  rw [← firstShiftReg_eq_rule]
  have hsel : (firstShiftReg left d src ||| (x &&& 0x8040#16)) &&& 0x003F#16 = firstShift false left 0#4 &&& 0x003F#16 :=
    (and_or_ignored _ x (by decide)).trans (firstShiftReg_and left d src)
  have hdest : nibbleField (firstShiftReg left d src ||| (x &&& 0x8040#16)) 0x0780#16 7 = d :=
    (nibbleField_or_ignored _ x 7 (by decide)).trans (destField_firstShiftReg left d src)
  have hsrc : nibbleField (firstShiftReg left d src ||| (x &&& 0x8040#16)) 0x7800#16 11 = src :=
    (nibbleField_or_ignored _ x 11 (by decide)).trans (srcField_firstShiftReg left d src)
  cases left
  case false => exact oneWord_of_row rfl (hsel.trans (by decide)) (by rw [if_neg Bool.false_ne_true, rowForm, hdest, hsrc])
  case true => exact oneWord_of_row rfl (hsel.trans (by decide)) (by rw [if_pos rfl, rowForm, hdest, hsrc])

/-- R155: the low five bits of the amount register. -/
theorem shiftAmount_eq_mod (src : RegIndex) (s : State) : shiftAmount src s = (s.reg src).toNat % 32 := by
  rw [shiftAmount, BitVec.toNat_setWidth]

theorem execShr_writes (d src : RegIndex) (s : State) :
    ∃ t, execShr d src s = .next t ∧
      RegWritten d (ruleShiftRight s.params.shiftRightKind (s.reg d) ((s.reg src).toNat % 32)) s t := by
  rw [← shiftAmount_eq_mod, ← shiftRightValue_eq_rule]
  exact ⟨_, rfl, regWritten_setReg d _ s⟩

theorem execShl_writes (d src : RegIndex) (s : State) :
    ∃ t, execShl d src s = .next t ∧ RegWritten d (ruleShiftLeft (s.reg d) ((s.reg src).toNat % 32)) s t := by
  rw [← shiftAmount_eq_mod, ← shiftLeftValue_eq_rule]
  exact ⟨_, rfl, regWritten_setReg d _ s⟩

/-- Settles O33: as the immediate shifts (O34), with the amount from a register. -/
theorem shiftRegister : Obligations.ShiftRegister := fun d src x s =>
  ⟨⟨oneWord_shiftReg false d src x, execShr_writes d src s⟩, ⟨oneWord_shiftReg true d src x, execShl_writes d src s⟩⟩

/-! ### Words with one operand

The operand stands at bits 11:8; everything outside it and the row's mask is ignored. -/

theorem oneWord_of_reg {base mask ignored : Word} {build : RegIndex → Instr} (hrow : ∀ d, (build d).row = (mask, base))
    (hform : ∀ d w, rowForm (build d) w = .complete (build (field11to8 w))) (hbase : base &&& mask = base)
    (hmask : mask &&& 0xFF00#16 = 0#16) (hign : ignored &&& mask = 0#16) (hoperand : ignored &&& 0x0F00#16 = 0#16)
    (d : RegIndex) (x : Word) : OneWord (ruleWord base d 0#4 ||| (x &&& ignored)) (build d) := by
  have hfield : base &&& 0x0F00#16 = 0#16 := base_and_eq_zero hbase hmask (by decide)
  refine oneWord_of_row (hrow d) ((ruleWord_and base x d 0#4 hmask hign).trans hbase) ?_
  rw [hform, field11to8_ruleWord base x d 0#4 hfield hoperand]

/-! ### Flag moves -/

theorem oneWord_mtc (d : RegIndex) (x : Word) : OneWord (ruleWord 0x00C4#16 d 0#4 ||| (x &&& 0xF010#16)) (.mtc d) :=
  oneWord_of_reg (mask := 0x00EF#16) (fun _ => rfl) (fun _ _ => rfl) (by decide) (by decide) (by decide) (by decide) d x

theorem oneWord_mfc (d : RegIndex) (x : Word) : OneWord (ruleWord 0x00E4#16 d 0#4 ||| (x &&& 0xF010#16)) (.mfc d) :=
  oneWord_of_reg (mask := 0x00EF#16) (fun _ => rfl) (fun _ _ => rfl) (by decide) (by decide) (by decide) (by decide) d x

theorem truth_eq_rule (v : Value) : truth v = decide (v ≠ 0#32) := cmpNe_eq_rule .unsigned v 0#32

/-- Settles O37: one write of the flag, one of a register. -/
theorem moveToAndFromCondition : Obligations.MoveToAndFromCondition := fun d x s => by
  refine ⟨⟨oneWord_mtc d x, _, rfl, ?_⟩, ⟨oneWord_mfc d x, _, rfl, regWritten_setReg d _ s⟩⟩
  rw [← truth_eq_rule]
  exact flagWritten_setFlag _ s

/-! ### Move and Set -/

/-- R216, R217: the nibble of Move and Set stands at bits 7:4, so the rule's word is the encoder's. -/
theorem ruleWord_nibble (op : Word) (hop : op &&& 0x000F#16 = op) (m a b : BitVec 4) :
    ruleWord (op ||| (m.setWidth 16 <<< 4)) a b = firstNibbles op m a b := by
  have hbase : op ||| (m.setWidth 16 <<< 4) = firstNibbles op m 0#4 0#4 := by
    apply BitVec.eq_of_getLsbD_eq
    intro i hi
    rw [← hop]
    simp only [firstNibbles, encodeBits]
    interval_cases i <;> simp
  rw [hbase, ruleWord_firstNibbles]

/-- Settles O51: the word is the encoder's, the restricted source the one value written. -/
theorem moveResult : Obligations.MoveResult := fun m d src s => by
  rw [ruleWord_nibble _ (by decide)]
  refine ⟨oneWord_of_row rfl ((firstNibbles_and_op ..).trans (by decide)) (by simp [rowForm]), _, rfl,
    regWritten_setReg d _ s⟩

/-- Settles O52: only the bits 15:12 are ignored, so the nibble and the register are read back from the word. -/
theorem setResult : Obligations.SetResult := fun m d v x s => by
  rw [ruleWord_nibble _ (by decide)]
  have hsel : (firstNibbles 7#16 m d 0#4 ||| (x &&& 0xF000#16)) &&& 0x000F#16 = 7#16 :=
    (and_or_ignored _ x (by decide)).trans ((firstNibbles_and_op ..).trans (by decide))
  have hm : field7to4 (firstNibbles 7#16 m d 0#4 ||| (x &&& 0xF000#16)) = m :=
    (nibbleField_or_ignored _ x 4 (by decide)).trans (field7to4_firstNibbles 7#16 m d 0#4)
  have hd : field11to8 (firstNibbles 7#16 m d 0#4 ||| (x &&& 0xF000#16)) = d :=
    (nibbleField_or_ignored _ x 8 (by decide)).trans (field11to8_firstNibbles 7#16 m d 0#4)
  have hreads := readsAs_rowForm (.set m d v) hsel
  rw [rowForm, hm, hd] at hreads
  exact ⟨hreads.immWords, _, rfl, regWritten_setReg d v s⟩

/-! ### Misc -/

/-- Settles O55: the word has no operand, and stopping changes `keepExecuting` alone. -/
theorem terminateHalts : Obligations.TerminateHalts := fun x s =>
  ⟨oneWord_of_row rfl ((and_or_ignored _ x (by decide)).trans (by decide)) rfl, _, rfl, nothingChanged_refl s.stop⟩

theorem oneWord_getc (d : RegIndex) (x : Word) : OneWord (ruleWord 0x0029#16 d 0#4 ||| (x &&& 0xF000#16)) (.getc d) :=
  oneWord_of_reg (mask := 0x00FF#16) (fun _ => rfl) (fun _ _ => rfl) (by decide) (by decide) (by decide) (by decide) d x

theorem oneWord_putc (d : RegIndex) (x : Word) : OneWord (ruleWord 0x0039#16 d 0#4 ||| (x &&& 0xF000#16)) (.putc d) :=
  oneWord_of_reg (mask := 0x00FF#16) (fun _ => rfl) (fun _ _ => rfl) (by decide) (by decide) (by decide) (by decide) d x

/-- Settles O56: the byte leaves the stream before the register is written. -/
theorem getcReadsByte : Obligations.GetcReadsByte := fun d x _ rest s hin =>
  ⟨oneWord_getc d x, _, execGetc_of_cons d hin, regWritten_setReg d _ { s with input := rest }⟩

/-- Settles O57: the empty stream is the one case of `getc` without a next state. -/
theorem getcStuckWithoutInput : Obligations.GetcStuckWithoutInput := fun d _ hin => execGetc_of_nil d hin

/-- Settles O58: the byte sent is the register's value modulo 256. -/
theorem putcWritesByte : Obligations.PutcWritesByte := fun d x s => by
  have hlow : (s.reg d).setWidth 8 = BitVec.ofNat 8 ((s.reg d).toNat % 256) := by
    apply BitVec.eq_of_toNat_eq
    simp
  refine ⟨oneWord_putc d x, _, rfl, ?_⟩
  rw [← hlow]
  exact nothingChanged_refl (charOut ((s.reg d).setWidth 8) s)

end Sys2Proof.Machine
end

section
/-! Reset (spec/10_state.md R38) and what the host may do to a core (spec/70_reset_and_hazards.md R274, R275). -/

namespace Sys2Proof.Machine

/-! ### Reset -/

theorem toNat_addrMask (p : Params) : (addrMask p).toNat = p.capacity - 1 := by
  have hpos := capacity_pos p
  have hle := capacity_le p
  rw [addrMask, BitVec.toNat_ofNat, Nat.mod_eq_of_lt (by omega)]

theorem resetWith_reg (p : Params) (i : RegIndex) : (State.resetWith p).reg i = 0#32 := by
  rw [State.reg, State.resetWith, Vector.getElem_replicate]

/-- Settles O14: memory with nothing listed is all zero (R35), and the masks are those of R25. -/
theorem resetLeavesSourceValues : Obligations.ResetLeavesSourceValues := by
  refine ⟨fun p => ⟨Memory.readWord_nil, rfl, rfl, fun i hi => ?address, fun i hi => ?value⟩, rfl, rfl⟩
  case address => rw [regmask_of_le p i hi, toNat_addrMask]
  case value => exact regmask_of_lt p i (BitVec.not_le.mpr hi)

/-- Settles O15: the registers by `resetWith_reg`, the other fields as reset writes them. -/
theorem resetLeavesChosenValues : Obligations.ResetLeavesChosenValues := fun p => ⟨resetWith_reg p, rfl, rfl, rfl, rfl⟩

/-- Settles O16: zero is within every mask, and nothing is listed in memory. -/
theorem invariantAtReset : Obligations.InvariantAtReset := fun p => by
  constructor
  case masked => exact fun i => by rw [resetWith_reg, BitVec.zero_and]
  case memWf => exact ⟨.nil, nofun⟩
  case memInRange => exact nofun
  case runningClean => exact fun _ => rfl

/-! ### The four accessors (R274) -/

section
variable {a : Value} {s : State}

theorem hostReadMemory_of_lt (h : a.toNat < s.params.capacity) : hostReadMemory a s = .ok (s.mem.readWord a.toNat) := by
  rw [hostReadMemory, memRead_of_lt h]

theorem hostReadMemory_of_le (h : s.params.capacity ≤ a.toNat) : hostReadMemory a s = .error (illegalAddress a) := by
  rw [hostReadMemory, memRead_of_le h]

theorem hostWriteMemory_of_lt (h : a.toNat < s.params.capacity) (w : Word) :
    hostWriteMemory a w s = .ok (s.setMem (s.mem.writeWord a.toNat w)) := by
  rw [hostWriteMemory, memWrite_of_lt h]

theorem hostWriteMemory_of_le (h : s.params.capacity ≤ a.toNat) (w : Word) :
    hostWriteMemory a w s = .error (illegalAddress a) := by
  rw [hostWriteMemory, memWrite_of_le h]

end

theorem hostIndex_eq_ofNat (i : Nat) : hostIndex i = BitVec.ofNat 4 i := by
  apply BitVec.eq_of_toNat_eq
  rw [hostIndex, BitVec.toNat_ofNat, BitVec.toNat_ofNat, Nat.mod_mod]

/-- Settles O59: the accessors are the checked accesses of the machine (R51) and its masked register write (R27). -/
theorem hostAccessorsObeyBounds : Obligations.HostAccessorsObeyBounds := fun a w i v s => by
  refine ⟨fun h => ⟨hostReadMemory_of_lt h, _, hostWriteMemory_of_lt h w, Memory.readWord_writeWord_same .., ?frame⟩,
    fun h => ⟨hostReadMemory_of_le h, hostWriteMemory_of_le h w⟩, ?get, ?set⟩
  case frame =>
    exact frame_setMem [] fun b hb => Memory.readByte_writeWord_other _ _ _ _ (by simpa using hb)
  case get => rw [hostGetRegister, hostIndex_eq_ofNat]
  case set =>
    rw [hostSetRegister, hostIndex_eq_ofNat]
    exact regWritten_setReg _ v s

/-! ### Installing an image (R275) -/

theorem installRegisters_moves (img : List Byte) (n : Nat) (s : State) : Moves s (installRegisters img n s) := by
  induction n with
  | zero => exact .refl
  | succ n ih => exact ih.setReg _ _

/-- Each installed register holds the image's value under its mask: a later write is to another register. -/
theorem installRegisters_reg (img : List Byte) {n : Nat} (hn : n ≤ 16) (s : State) {i : Nat} (hi : i < n) :
    (installRegisters img n s).reg (BitVec.ofNat 4 i) =
      imageRegister img i &&& regmask s.params (BitVec.ofNat 4 i) := by
  induction n with
  | zero => omega
  | succ n ih =>
    rw [installRegisters, hostSetRegister, hostIndex_eq_ofNat]
    by_cases hin : i = n
    · rw [hin, State.setReg_reg_same, (installRegisters_moves img n s).control.params]
    · have hne : BitVec.ofNat 4 i ≠ BitVec.ofNat 4 n := fun h => by
        have := congrArg BitVec.toNat h
        rw [BitVec.toNat_ofNat, BitVec.toNat_ofNat] at this
        omega
      rw [State.setReg_reg_other _ _ _ _ hne, ih (by omega) (by omega)]

/-- Installing cells writes memory alone, and each installed cell holds the image's word. -/
theorem installCells_eq (img : List Byte) {n : Nat} {s : State} (hn : n ≤ s.params.capacity) :
    ∃ mem, installCells img n s = s.setMem mem ∧ ∀ a < n, mem.readWord a = imageWord img (64 + 2 * a) := by
  induction n with
  | zero => exact ⟨s.mem, rfl, fun a ha => absurd ha (Nat.not_lt_zero a)⟩
  | succ n ih =>
    obtain ⟨mem, heq, hmem⟩ := ih (by omega)
    have haddr : (BitVec.ofNat 32 n).toNat = n := by
      have := capacity_le s.params
      rw [BitVec.toNat_ofNat, Nat.mod_eq_of_lt (by omega)]
    have hlt : (BitVec.ofNat 32 n).toNat < (s.setMem mem).params.capacity := by rw [haddr]; exact hn
    refine ⟨mem.writeWord n (imageWord img (64 + 2 * n)), ?_, fun a ha => ?_⟩
    · rw [installCells, heq, hostWriteMemory_of_lt hlt, haddr]
      rfl
    · by_cases han : a = n
      · rw [han, Memory.readWord_writeWord_same]
      · rw [Memory.readWord_writeWord_other _ _ _ _ han, hmem a (by omega)]

/-- An image of the right length installs: writes of registers, then memory alone. -/
theorem installImage_eq {img : List Byte} {s : State} (h : img.length = imageLength s.params) :
    ∃ u mem, installImage img s = some (u.setMem mem) ∧ Moves s u ∧
      (∀ i < 16, u.reg (BitVec.ofNat 4 i) = imageRegister img i &&& regmask s.params (BitVec.ofNat 4 i)) ∧
      ∀ a < s.params.capacity, mem.readWord a = imageWord img (64 + 2 * a) := by
  have hmoves := installRegisters_moves img 16 s
  obtain ⟨mem, heq, hmem⟩ := installCells_eq img (n := s.params.capacity) (by rw [hmoves.control.params])
  exact ⟨_, mem, by rw [installImage, if_pos h, heq], hmoves, fun i hi => installRegisters_reg img le_rfl s hi, hmem⟩

/-! ### Dumping it again -/

theorem bytesOfWords_imageWord (img : List Byte) (k : Nat) :
    bytesOfWords [imageWord img k] = [img.getD k 0#8, img.getD (k + 1) 0#8] := by
  simp [bytesOfWords, imageWord]

/-- The bytes of the words of an image from byte `k` on are the image's own. -/
theorem flatMap_imageWord (img : List Byte) (k n : Nat) (h : k + 2 * n ≤ img.length) :
    ((List.range n).flatMap fun a => bytesOfWords [imageWord img (k + 2 * a)]) = (img.drop k).take (2 * n) := by
  induction n with
  | zero => simp
  | succ n ih =>
    have hlow : 2 * n < (img.drop k).length := by rw [List.length_drop]; omega
    have hhigh : 2 * n + 1 < (img.drop k).length := by rw [List.length_drop]; omega
    have hgetLow : img.getD (k + 2 * n) 0#8 = (img.drop k)[2 * n] := by
      rw [List.getElem_drop, List.getD_eq_getElem _ _ (by omega)]
    have hgetHigh : img.getD (k + 2 * n + 1) 0#8 = (img.drop k)[2 * n + 1] := by
      simp only [List.getElem_drop, ← Nat.add_assoc]
      exact List.getD_eq_getElem _ _ (by omega)
    rw [List.range_succ, List.flatMap_append, ih (by omega), List.flatMap_singleton, bytesOfWords_imageWord, hgetLow,
      hgetHigh, Nat.mul_succ, ← List.take_concat_get' _ _ hhigh, ← List.take_concat_get' _ _ hlow, List.append_assoc]
    rfl

theorem length_dumpRegisters (s : State) : (dumpRegisters s).length = 64 := by
  simp [dumpRegisters, bytesOfWords, List.length_flatMap]

/-- R275: after the 64 bytes of the registers a dump holds the cells. -/
theorem dumpImage_drop (s : State) : (dumpImage s).drop 64 = dumpCells s := List.drop_left' (length_dumpRegisters s)

/-- Settles O60: the cells of the dump are the words that were installed (`flatMap_imageWord`); the rest stays by
`installImage_eq`. -/
theorem imageInstallThenDump : Obligations.ImageInstallThenDump := fun img s => by
  refine ⟨fun h => if_neg h, fun h => ?_⟩
  obtain ⟨u, mem, hinstall, hmoves, hreg, hmem⟩ := installImage_eq h
  have hcontrol := hmoves.control
  refine ⟨_, hinstall, ?dump, fun i hi => ?reg, hcontrol.flag, hcontrol.keepExecuting, hcontrol.fault⟩
  case reg => rw [hostGetRegister, hostIndex_eq_ofNat, State.setMem_reg, hreg i hi]
  case dump =>
    rw [dumpImage_drop, dumpCells, State.setMem_params, State.setMem_mem, hcontrol.params]
    calc _ = (List.range s.params.capacity).flatMap fun a => bytesOfWords [imageWord img (64 + 2 * a)] :=
          List.flatMap_congr fun a ha => by rw [hmem a (List.mem_range.mp ha)]
      _ = (img.drop 64).take (2 * s.params.capacity) := flatMap_imageWord img 64 _ h.ge
      _ = img.drop 64 := List.take_of_length_le (by rw [List.length_drop]; omega)

end Sys2Proof.Machine
end
